-- ==== Sys2Proof/Word.lean ====
section
/-!
DEFINITION. The word types of the servo pulse scheduler (SPS), whose command and status words are 32 bits
(20_memory.md R41) and whose GPIO registers are 8 bits (10_state.md R36).
-/

namespace Sys2Proof

/-- A command word or the status word (20_memory.md R41, 30_encoding.md R58). -/
abbrev Word := BitVec 32

/-- A GPIO register, a stored angle, or one byte lane of the host bus (10_state.md R18, R36; 20_memory.md R41). -/
abbrev Byte := BitVec 8

/-- A GPIO register address, the key of the port lookup (10_state.md R37). -/
abbrev RegAddr := BitVec 16

/-- A channel index as the command formats and STATUS carry it (30_encoding.md R62, 10_state.md R23, R27). -/
abbrev Chan := BitVec 8

/-- A bit position in a GPIO register (10_state.md R16). -/
abbrev Pin := BitVec 3

end Sys2Proof
end

