-- ==== Sys2Proof/Config.lean ====
section
/-!
DEFINITION. The configuration record of 00_scope.md R6: what is fixed when the block is built. Nothing writes it
(10_state.md R13, R35). Which records mean something is `Config.WellFormed` (WellFormed.lean, rule R7).
-/

namespace Sys2Proof

/-- One direction/output register pair: `DIR_ADDR[p]` and `OUT_ADDR[p]` (00_scope.md R6, 20_memory.md R50). -/
structure PortAddr where
  dirAddr : RegAddr
  outAddr : RegAddr
  deriving DecidableEq, Repr

/-- The implementation parameters of 00_scope.md R6. `N_PORTS` is the length of `ports`. -/
structure Config where
  /-- `N_CH`, the number of channels. -/
  nCh : Nat
  /-- `DIR_ADDR[p]` and `OUT_ADDR[p]` for each port p. -/
  ports : List PortAddr
  /-- `K`, timer ticks per degree. -/
  k : Nat
  /-- `BASE`, the duration of angle 0 in ticks. -/
  base : Nat
  /-- `W`, the width of COUNTER and COMPARE. -/
  w : Nat
  /-- `INIT_COMPARE`, what every accepted INIT writes to COMPARE. -/
  initCompare : Nat
  /-- `ANGLE_RESET`, the reset value of every commanded angle. -/
  angleReset : Nat
  /-- `PRESCALER`: named by R6 and read by no rule, since time is counted in ticks (R11). -/
  prescaler : Nat
  /-- `BLOCK_BASE`, the host address of the command/status window. -/
  blockBase : Nat
  deriving DecidableEq, Repr

/-- `N_PORTS` (00_scope.md R6). -/
abbrev Config.nPorts (c : Config) : Nat := c.ports.length

/-- 2^W, the number of values of COUNTER and of COMPARE (00_scope.md R8). -/
abbrev Config.span (c : Config) : Nat := 2 ^ c.w

/-- The shortest duration `D_MIN = BASE` (00_scope.md R7). -/
abbrev Config.dMin (c : Config) : Nat := c.base

/-- The longest duration `D_MAX = 180 x K + BASE` (00_scope.md R7). -/
abbrev Config.dMax (c : Config) : Nat := 180 * c.k + c.base

/-- Test configuration TC1 of 95_test_vectors.md section 1. The spec's table gives no BLOCK_BASE and no PRESCALER:
0 and 1 are DESIGN CHOICE (log 2), unsafe for a claim that rests on them. -/
def Config.tc1 : Config where
  nCh := 2
  ports := [⟨0x0024, 0x0025⟩, ⟨0x0027, 0x0028⟩, ⟨0x002A, 0x002B⟩, ⟨0x002D, 0x002E⟩, ⟨0x0030, 0x0031⟩]
  k := 10
  base := 1000
  w := 16
  initCompare := 1000
  angleReset := 90
  prescaler := 1
  blockBase := 0

/-- Test configuration TC2 of 95_test_vectors.md section 1: TC1 with one channel. -/
def Config.tc2 : Config := { Config.tc1 with nCh := 1 }

/-- Test configuration TC3 of 95_test_vectors.md section 1: TC1 with three channels. -/
def Config.tc3 : Config := { Config.tc1 with nCh := 3 }

end Sys2Proof
end

