-- ==== Sys2Proof/Syntax.lean ====
section
/-!
DEFINITION. The operations of the SPS: one constructor per row of spec/opcode_table.json, in the table's order
(00_scope.md R2 calls them its instructions). Register numbers and fields are already pulled out of the word.
-/

namespace Sys2Proof

/-- The operations of spec/opcode_table.json. `init` and `setang` are the host commands, the `reserved…` rows the
command words that are rejected, `rdstat` the status read, `tick` and `event` the timer's internal operations. -/
inductive Instr where
  /-- `INIT ch, pin, addr` (40_host_commands.md R78), format I of 30_encoding.md R61. -/
  | init (ch : Chan) (pin : Pin) (addr : RegAddr)
  /-- `SETANG ch, angle` (40_host_commands.md R79), format A of 30_encoding.md R61. The angle is the 16-bit field (R65). -/
  | setang (ch : Chan) (angle : BitVec 16)
  /-- Reserved opcode 0b0000 (40_host_commands.md R80); `rest` is bits 27..0, which no rule examines. -/
  | reservedOp0 (rest : BitVec 28)
  /-- Reserved opcode 0b0011 (R80). -/
  | reservedOp3 (rest : BitVec 28)
  /-- Reserved opcode 0b0100 (R80). -/
  | reservedOp4 (rest : BitVec 28)
  /-- Reserved opcode 0b0101 (R80). -/
  | reservedOp5 (rest : BitVec 28)
  /-- Reserved opcode 0b0110 (R80). -/
  | reservedOp6 (rest : BitVec 28)
  /-- Reserved opcode 0b0111 (R80). -/
  | reservedOp7 (rest : BitVec 28)
  /-- Reserved opcode 0b1000 (R80). -/
  | reservedOp8 (rest : BitVec 28)
  /-- Reserved opcode 0b1001 (R80). -/
  | reservedOp9 (rest : BitVec 28)
  /-- Reserved opcode 0b1010 (R80). -/
  | reservedOpA (rest : BitVec 28)
  /-- Reserved opcode 0b1011 (R80). -/
  | reservedOpB (rest : BitVec 28)
  /-- Reserved opcode 0b1100 (R80). -/
  | reservedOpC (rest : BitVec 28)
  /-- Reserved opcode 0b1101 (R80). -/
  | reservedOpD (rest : BitVec 28)
  /-- Reserved opcode 0b1110 (R80). -/
  | reservedOpE (rest : BitVec 28)
  /-- Reserved opcode 0b1111 (R80). -/
  | reservedOpF (rest : BitVec 28)
  /-- A format-I word with its reserved bit 19 set (R81); the other fields are carried and not examined. -/
  | reservedInitB19 (ch : Chan) (pin : Pin) (addr : RegAddr)
  /-- A format-A word with reserved bit 19 set (R81); `rsv` is the reserved nibble, bits 19..16. -/
  | reservedSetangB19 (ch : Chan) (rsv : BitVec 4) (angle : BitVec 16)
  /-- A format-A word with reserved bit 18 set (R81). -/
  | reservedSetangB18 (ch : Chan) (rsv : BitVec 4) (angle : BitVec 16)
  /-- A format-A word with reserved bit 17 set (R81). -/
  | reservedSetangB17 (ch : Chan) (rsv : BitVec 4) (angle : BitVec 16)
  /-- A format-A word with reserved bit 16 set (R81). -/
  | reservedSetangB16 (ch : Chan) (rsv : BitVec 4) (angle : BitVec 16)
  /-- `RDSTAT`, the host's read of STATUS (40_host_commands.md R82). It has no command word. -/
  | rdstat
  /-- `TICK`, one tick of the timer (41_timer_event.md R91). It has no command word. -/
  | tick
  /-- `EVENT`, the compare-match event (41_timer_event.md R94). It has no command word. -/
  | event
  deriving DecidableEq, Repr

end Sys2Proof
end

