-- ==== Sys2Proof/WellFormed.lean ====
section
/-!
DEFINITION. What is well formed: a configuration (00_scope.md R7) and an instruction (the reserved rows of format A,
whose reserved nibble must have the row's bit set). Both are decidable.
-/

namespace Sys2Proof

/-- The 2 x N_PORTS register addresses of a configuration (00_scope.md R7, condition 3). -/
abbrev Config.regAddrs (c : Config) : List RegAddr :=
  c.ports.map PortAddr.dirAddr ++ c.ports.map PortAddr.outAddr

/-- The seven conditions of 00_scope.md R7, in its order. -/
abbrev Config.WellFormed (c : Config) : Prop :=
  (1 ≤ c.nCh ∧ c.nCh ≤ 255) ∧
  (1 ≤ c.nPorts ∧ c.nPorts ≤ 8) ∧
  c.regAddrs.Nodup ∧
  (1 ≤ c.k ∧ 1 ≤ c.base) ∧
  c.dMax ≤ c.span - 1 ∧
  (1 ≤ c.initCompare ∧ c.initCompare ≤ c.span - 1) ∧
  c.angleReset ≤ 180

/-- An instruction is well formed when its fields can stand in a word of its row. Only the four overlapping rows
RESERVED_SETANG_B19 to B16 restrict a field: the row's bit of the reserved nibble is set, and, so that each reserved
word belongs to one row, no higher bit of the nibble is (DESIGN CHOICE, log 10: the four rows act alike, R81). -/
def Instr.isWellFormed : Instr → Bool
  | .reservedSetangB19 _ rsv _ => rsv.getLsbD 3
  | .reservedSetangB18 _ rsv _ => !rsv.getLsbD 3 && rsv.getLsbD 2
  | .reservedSetangB17 _ rsv _ => !rsv.getLsbD 3 && !rsv.getLsbD 2 && rsv.getLsbD 1
  | .reservedSetangB16 _ rsv _ =>
      !rsv.getLsbD 3 && !rsv.getLsbD 2 && !rsv.getLsbD 1 && rsv.getLsbD 0
  | .init _ _ _ => true
  | .setang _ _ => true
  | .reservedOp0 _ => true
  | .reservedOp3 _ => true
  | .reservedOp4 _ => true
  | .reservedOp5 _ => true
  | .reservedOp6 _ => true
  | .reservedOp7 _ => true
  | .reservedOp8 _ => true
  | .reservedOp9 _ => true
  | .reservedOpA _ => true
  | .reservedOpB _ => true
  | .reservedOpC _ => true
  | .reservedOpD _ => true
  | .reservedOpE _ => true
  | .reservedOpF _ => true
  | .reservedInitB19 _ _ _ => true
  | .rdstat => true
  | .tick => true
  | .event => true

/-- `Instr.isWellFormed` as a proposition. -/
abbrev Instr.WellFormed (i : Instr) : Prop := i.isWellFormed = true

/-- An operation that a command word can carry: all but the three that have no encoding (30_encoding.md R59). -/
def Instr.isEncoded : Instr → Bool
  | .rdstat => false
  | .tick => false
  | .event => false
  | .init _ _ _ => true
  | .setang _ _ => true
  | .reservedOp0 _ => true
  | .reservedOp3 _ => true
  | .reservedOp4 _ => true
  | .reservedOp5 _ => true
  | .reservedOp6 _ => true
  | .reservedOp7 _ => true
  | .reservedOp8 _ => true
  | .reservedOp9 _ => true
  | .reservedOpA _ => true
  | .reservedOpB _ => true
  | .reservedOpC _ => true
  | .reservedOpD _ => true
  | .reservedOpE _ => true
  | .reservedOpF _ => true
  | .reservedInitB19 _ _ _ => true
  | .reservedSetangB19 _ _ _ => true
  | .reservedSetangB18 _ _ _ => true
  | .reservedSetangB17 _ _ _ => true
  | .reservedSetangB16 _ _ _ => true

/-- `Instr.isEncoded` as a proposition. -/
abbrev Instr.HasEncoding (i : Instr) : Prop := i.isEncoded = true

/-- A word that the command port rejects: a reserved opcode or a reserved bit set (30_encoding.md R69). -/
def Instr.isReserved : Instr → Bool
  | .init _ _ _ => false
  | .setang _ _ => false
  | .rdstat => false
  | .tick => false
  | .event => false
  | .reservedOp0 _ => true
  | .reservedOp3 _ => true
  | .reservedOp4 _ => true
  | .reservedOp5 _ => true
  | .reservedOp6 _ => true
  | .reservedOp7 _ => true
  | .reservedOp8 _ => true
  | .reservedOp9 _ => true
  | .reservedOpA _ => true
  | .reservedOpB _ => true
  | .reservedOpC _ => true
  | .reservedOpD _ => true
  | .reservedOpE _ => true
  | .reservedOpF _ => true
  | .reservedInitB19 _ _ _ => true
  | .reservedSetangB19 _ _ _ => true
  | .reservedSetangB18 _ _ _ => true
  | .reservedSetangB17 _ _ _ => true
  | .reservedSetangB16 _ _ _ => true

/-- `Instr.isReserved` as a proposition. -/
abbrev Instr.Reserved (i : Instr) : Prop := i.isReserved = true

end Sys2Proof
end

