-- ==== Sys2Proof/Decode.lean ====
section
/-!
DEFINITION. The command decoder and encoder (30_encoding.md). The decoder is total over all 2^32 words (R68) and over
any list of bytes, of which only four make a word (R58, 20_memory.md R41). Every field is pulled out here, once.
-/

namespace Sys2Proof

/-- The word in four byte lanes, little-endian: lane i holds bits 8i+7..8i (20_memory.md R41). -/
def wordOfBytes (b0 b1 b2 b3 : Byte) : Word := b3 ++ b2 ++ b1 ++ b0

/-- The four byte lanes of a word, lowest address first (20_memory.md R41). -/
def bytesOfWord (w : Word) : List Byte :=
  [w.extractLsb' 0 8, w.extractLsb' 8 8, w.extractLsb' 16 8, w.extractLsb' 24 8]

/-- OP, bits 31..28 (30_encoding.md R60). -/
def opField (w : Word) : BitVec 4 := w.extractLsb' 28 4

/-- Bits 27..0, all that is left of a word beside OP. -/
def restField (w : Word) : BitVec 28 := w.extractLsb' 0 28

/-- CH, bits 27..20, the same in both formats (30_encoding.md R62). -/
def chField (w : Word) : Chan := w.extractLsb' 20 8

/-- The reserved bit 19 of format I (30_encoding.md R66). -/
def rsvBitI (w : Word) : Bool := w.getLsbD 19

/-- PIN, bits 18..16 of format I (30_encoding.md R63). -/
def pinField (w : Word) : Pin := w.extractLsb' 16 3

/-- The reserved bits 19..16 of format A (30_encoding.md R66). -/
def rsvFieldA (w : Word) : BitVec 4 := w.extractLsb' 16 4

/-- Bits 15..0: ADDR of format I, ANGLE of format A (30_encoding.md R64, R65). -/
def lowField (w : Word) : BitVec 16 := w.extractLsb' 0 16

/-- OP = 0b0001: INIT, or the reserved row when bit 19 is set (30_encoding.md R68). -/
def decodeFormatI (w : Word) : Instr :=
  if rsvBitI w then .reservedInitB19 (chField w) (pinField w) (lowField w)
  else .init (chField w) (pinField w) (lowField w)

/-- OP = 0b0010: SETANG, or a reserved row when a bit of 19..16 is set (30_encoding.md R68). Where several are, the
highest names the row (DESIGN CHOICE, log 10; the rows act alike, R81). -/
def decodeFormatA (w : Word) : Instr :=
  if (rsvFieldA w).getLsbD 3 then .reservedSetangB19 (chField w) (rsvFieldA w) (lowField w)
  else if (rsvFieldA w).getLsbD 2 then .reservedSetangB18 (chField w) (rsvFieldA w) (lowField w)
  else if (rsvFieldA w).getLsbD 1 then .reservedSetangB17 (chField w) (rsvFieldA w) (lowField w)
  else if (rsvFieldA w).getLsbD 0 then .reservedSetangB16 (chField w) (rsvFieldA w) (lowField w)
  else .setang (chField w) (lowField w)

/-- The decode function of 30_encoding.md R68 with the opcode map of R67: total over all words. -/
def decode (w : Word) : Instr :=
  match (opField w).toNat with
  | 0 => .reservedOp0 (restField w)
  | 1 => decodeFormatI w
  | 2 => decodeFormatA w
  | 3 => .reservedOp3 (restField w)
  | 4 => .reservedOp4 (restField w)
  | 5 => .reservedOp5 (restField w)
  | 6 => .reservedOp6 (restField w)
  | 7 => .reservedOp7 (restField w)
  | 8 => .reservedOp8 (restField w)
  | 9 => .reservedOp9 (restField w)
  | 10 => .reservedOpA (restField w)
  | 11 => .reservedOpB (restField w)
  | 12 => .reservedOpC (restField w)
  | 13 => .reservedOpD (restField w)
  | 14 => .reservedOpE (restField w)
  | _ => .reservedOpF (restField w)  -- OP has four bits: 15 is all that is left

/-- Why a list of bytes is no command word. -/
inductive DecodeError where
  /-- The list does not hold four bytes: the SPS decodes one length (30_encoding.md R58). -/
  | notFourBytes (n : Nat)
  deriving DecidableEq, Repr

/-- The decoder on the bytes of one bus access, lowest address first; any list that is not four bytes is rejected by
name (30_encoding.md R58, 20_memory.md R41). -/
def decodeBytes : List Byte → Except DecodeError Instr
  | [b0, b1, b2, b3] => .ok (decode (wordOfBytes b0 b1 b2 b3))
  | bs => .error (.notFourBytes bs.length)

/-- A reserved-opcode word: OP and 28 free bits (40_host_commands.md R80). -/
def encodeOpcode (op : BitVec 4) (rest : BitVec 28) : Word := op ++ rest

/-- Format I of 30_encoding.md R61 with its bit 19 given. -/
def encodeFormatI (rsv : BitVec 1) (ch : Chan) (pin : Pin) (addr : RegAddr) : Word :=
  0b0001#4 ++ ch ++ rsv ++ pin ++ addr

/-- Format A of 30_encoding.md R61 with its bits 19..16 given. -/
def encodeFormatA (ch : Chan) (rsv : BitVec 4) (angle : BitVec 16) : Word :=
  0b0010#4 ++ ch ++ rsv ++ angle

/-- The command word of an instruction, and none for the three operations without one (30_encoding.md R59, R61). -/
def encode : Instr → Option Word
  | .init ch pin addr => some (encodeFormatI 0 ch pin addr)
  | .setang ch angle => some (encodeFormatA ch 0 angle)
  | .reservedOp0 rest => some (encodeOpcode 0x0 rest)
  | .reservedOp3 rest => some (encodeOpcode 0x3 rest)
  | .reservedOp4 rest => some (encodeOpcode 0x4 rest)
  | .reservedOp5 rest => some (encodeOpcode 0x5 rest)
  | .reservedOp6 rest => some (encodeOpcode 0x6 rest)
  | .reservedOp7 rest => some (encodeOpcode 0x7 rest)
  | .reservedOp8 rest => some (encodeOpcode 0x8 rest)
  | .reservedOp9 rest => some (encodeOpcode 0x9 rest)
  | .reservedOpA rest => some (encodeOpcode 0xA rest)
  | .reservedOpB rest => some (encodeOpcode 0xB rest)
  | .reservedOpC rest => some (encodeOpcode 0xC rest)
  | .reservedOpD rest => some (encodeOpcode 0xD rest)
  | .reservedOpE rest => some (encodeOpcode 0xE rest)
  | .reservedOpF rest => some (encodeOpcode 0xF rest)
  | .reservedInitB19 ch pin addr => some (encodeFormatI 1 ch pin addr)
  | .reservedSetangB19 ch rsv angle => some (encodeFormatA ch rsv angle)
  | .reservedSetangB18 ch rsv angle => some (encodeFormatA ch rsv angle)
  | .reservedSetangB17 ch rsv angle => some (encodeFormatA ch rsv angle)
  | .reservedSetangB16 ch rsv angle => some (encodeFormatA ch rsv angle)
  | .rdstat => none
  | .tick => none
  | .event => none

/-- The mask and the match of an instruction's row in spec/opcode_table.json (30_encoding.md R67), none for the rows
without an encoding. -/
def encodingRow : Instr → Option (Word × Word)
  | .init _ _ _ => some (0xF0080000, 0x10000000)
  | .setang _ _ => some (0xF00F0000, 0x20000000)
  | .reservedOp0 _ => some (0xF0000000, 0x00000000)
  | .reservedOp3 _ => some (0xF0000000, 0x30000000)
  | .reservedOp4 _ => some (0xF0000000, 0x40000000)
  | .reservedOp5 _ => some (0xF0000000, 0x50000000)
  | .reservedOp6 _ => some (0xF0000000, 0x60000000)
  | .reservedOp7 _ => some (0xF0000000, 0x70000000)
  | .reservedOp8 _ => some (0xF0000000, 0x80000000)
  | .reservedOp9 _ => some (0xF0000000, 0x90000000)
  | .reservedOpA _ => some (0xF0000000, 0xA0000000)
  | .reservedOpB _ => some (0xF0000000, 0xB0000000)
  | .reservedOpC _ => some (0xF0000000, 0xC0000000)
  | .reservedOpD _ => some (0xF0000000, 0xD0000000)
  | .reservedOpE _ => some (0xF0000000, 0xE0000000)
  | .reservedOpF _ => some (0xF0000000, 0xF0000000)
  | .reservedInitB19 _ _ _ => some (0xF0080000, 0x10080000)
  | .reservedSetangB19 _ _ _ => some (0xF0080000, 0x20080000)
  | .reservedSetangB18 _ _ _ => some (0xF0040000, 0x20040000)
  | .reservedSetangB17 _ _ _ => some (0xF0020000, 0x20020000)
  | .reservedSetangB16 _ _ _ => some (0xF0010000, 0x20010000)
  | .rdstat => none
  | .tick => none
  | .event => none

/-- The command word of the low `nbits` bits of `w`, the bits above them zero. -/
def tableWord (nbits w : Nat) : Word := BitVec.ofNat 32 (w % 2 ^ nbits)

/-- What the decoder reads from an instruction numbered as spec/opcode_table.json numbers its bits, laid out in the byte
lanes of the window (20_memory.md R41). A command is 32 bits long (30_encoding.md R58), so more bits are refused. -/
def decodeTableWord (nbits w : Nat) : Option Instr :=
  if 32 < nbits then none
  else
    match decodeBytes (bytesOfWord (tableWord nbits w)) with
    | .ok i => some i
    | .error _ => none

end Sys2Proof
end

