-- ==== Sys2Proof/Machine/State.lean ====
section
/-!
DEFINITION. The state of the SPS: exactly the fields of 10_state.md R13, and three fields of the model's own (the
configuration record, the agents' remaining steps, and what the host last read). All of it is plain data. The reset
values are those of R40.
-/

namespace Sys2Proof.Machine

/-- PHASE: the level the next EVENT drives (10_state.md R28, 90_conflicts.md C1). -/
inductive Phase where
  /-- The next event lowers the pin. -/
  | low
  /-- The next event raises the pin. -/
  | high
  deriving DecidableEq, Repr

/-- The two register files of the GPIO ports (10_state.md R36). -/
inductive GpioReg where
  /-- DIR[p], the direction (output-enable) registers. -/
  | dir
  /-- OUT[p], the output (drive level) registers. -/
  | out
  deriving DecidableEq, Repr

/-- One entry of the channel table (10_state.md R15 to R18). -/
structure Slot where
  pin : Pin
  port : BitVec 3
  angle : Byte
  deriving DecidableEq, Repr

/-- One atomic step of an agent (00_scope.md R10). -/
inductive Action where
  /-- The host writes these byte lanes, lowest first, at this bus address (20_memory.md R41, R44). -/
  | write (addr : Nat) (bytes : List Byte)
  /-- The host reads this many bytes at this bus address (20_memory.md R44). -/
  | read (addr size : Nat)
  /-- The host writes one bit of a GPIO register as an external agent (43_gpio_toggle.md R126). -/
  | gpio (reg : GpioReg) (port : Nat) (bit : Pin) (value : Bool)
  /-- The timer takes one tick (41_timer_event.md R91). -/
  | tick
  /-- The platform asserts reset (70_reset_and_hazards.md R147). -/
  | reset
  deriving DecidableEq, Repr

/-- Why the MODEL stops with a fault. None is a behaviour of the hardware: 00_scope.md R8 and 10_state.md R39 let a
model fault on a state that breaks its invariants, and no reachable state does. All are safe. -/
inductive Fault where
  /-- Raised by INIT, SETANG and EVENT when the slot table holds no entry for the channel (10_state.md R15, R39). Safe. -/
  | noSlot (ch : Nat)
  /-- Raised by a GPIO write when the register list holds no entry for the port (10_state.md R36, R39). Safe. -/
  | noPort (port : Nat)
  /-- Raised by EVENT and INIT when the value does not fit the W bits of COMPARE (00_scope.md R8). Safe. -/
  | valueTooWide (value : Nat)
  deriving DecidableEq, Repr

/-- Why the model gives an input no meaning (60_exceptions.md R133). All are safe: they stop where a claim would
otherwise be unprovable or have no ground. -/
inductive Refusal where
  /-- Raised by an arm of exec whose instruction has no meaning yet; none at present. Safe. -/
  | notModelled (mnemonic : String)
  /-- Raised by every meaning under a configuration that breaks 00_scope.md R7 ("A model refuses a configuration that
  is not well formed"). Safe. -/
  | illFormedConfiguration
  /-- Raised by a host access other than those of 20_memory.md R44 and R45's no-op ("a model refuses it"). Safe. -/
  | undefinedHostAccess
  /-- Raised by a host GPIO write that names a port the configuration does not have: 43_gpio_toggle.md R126 speaks of
  DIR[p] and OUT[p] for p < N_PORTS only (10_state.md R36). Safe. -/
  | noSuchPort (port : Nat)
  deriving DecidableEq, Repr

/-- The machine. The first three fields are the model's own; the rest are the fields of 10_state.md R13. -/
structure State where
  /-- The configuration record of 00_scope.md R6. Nothing writes it (log 1). -/
  cfg : Config
  /-- The agents' remaining steps in their total order (00_scope.md R10, 20_memory.md R52; log 3). -/
  pending : List Action
  /-- What the last status read gave the host (40_host_commands.md R82; log 5). -/
  lastRead : Option Word
  /-- SLOT[0..N_CH-1] (R15). -/
  slots : List Slot
  /-- INIT_COUNT (R23). -/
  initCount : Chan
  /-- ACTIVE_CH (R27). -/
  activeCh : Chan
  /-- PHASE (R28). -/
  phase : Phase
  /-- COUNTER, a number below 2^W (R30; log 9). -/
  counter : Nat
  /-- COMPARE, a number below 2^W (R32; log 9). -/
  compare : Nat
  /-- RUN (R31). -/
  run : Bool
  /-- ERR_OP (R33, R34). -/
  errOp : Bool
  /-- ERR_CH. -/
  errCh : Bool
  /-- ERR_SEQ. -/
  errSeq : Bool
  /-- ERR_ADDR. -/
  errAddr : Bool
  /-- ERR_UNINIT. -/
  errUninit : Bool
  /-- DIR[0..N_PORTS-1] (R36). -/
  dir : List Byte
  /-- OUT[0..N_PORTS-1] (R36). -/
  out : List Byte
  deriving DecidableEq, Repr

/-- The state right after reset under a configuration: the table of 10_state.md R40. -/
def State.resetWith (c : Config) : State where
  cfg := c
  pending := []
  lastRead := none
  slots := List.replicate c.nCh ⟨0, 0, BitVec.ofNat 8 c.angleReset⟩
  initCount := 0
  activeCh := 0
  phase := .low
  counter := 0
  compare := 0
  run := false
  errOp := false
  errCh := false
  errSeq := false
  errAddr := false
  errUninit := false
  dir := List.replicate c.nPorts 0
  out := List.replicate c.nPorts 0

/-- The state right after reset. The configuration is OPEN (00_scope.md R6); this constant names the spec's test
configuration TC1 (DESIGN CHOICE, log 2, unsafe for a claim about this constant alone): claims about reset are stated
of `State.resetWith c` for every well-formed c. -/
def State.reset : State := State.resetWith Config.tc1

end Sys2Proof.Machine
end

