-- ==== Sys2Proof/Machine/Flags.lean ====
section
/-!
DEFINITION. The five sticky error flags (10_state.md R34) and the status word (R33). The SPS has no arithmetic flags
(R29).
-/

namespace Sys2Proof.Machine

/-- The rejection causes of 60_exceptions.md R131, each the name of its flag. -/
inductive ErrFlag where
  /-- ERR_OP: a reserved opcode, or a reserved bit set. -/
  | op
  /-- ERR_CH: CH >= N_CH. -/
  | ch
  /-- ERR_SEQ: INIT with CH != INIT_COUNT. -/
  | seq
  /-- ERR_ADDR: INIT with an address that is no DIR_ADDR[p]. -/
  | addr
  /-- ERR_UNINIT: SETANG of a channel that is not initialized. -/
  | uninit
  deriving DecidableEq, Repr

/-- One error flag of the state. -/
def State.flag (s : State) : ErrFlag → Bool
  | .op => s.errOp
  | .ch => s.errCh
  | .seq => s.errSeq
  | .addr => s.errAddr
  | .uninit => s.errUninit

/-- `S.<code> <- 1` (60_exceptions.md R130). No operation writes 0 to a flag (10_state.md R34). -/
def State.setFlag (e : ErrFlag) (s : State) : State :=
  match e with
  | .op => { s with errOp := true }
  | .ch => { s with errCh := true }
  | .seq => { s with errSeq := true }
  | .addr => { s with errAddr := true }
  | .uninit => { s with errUninit := true }

/-- PHASE as STATUS shows it: Low 0, High 1 (10_state.md R28). -/
def Phase.bit : Phase → Bool
  | .low => false
  | .high => true

/-- STATUS, in the order of the pseudocode of 10_state.md R33: reserved bits 31..25, PHASE, ACTIVE_CH, INIT_COUNT, RUN,
reserved bits 6..5, and the five flags. -/
def State.status (s : State) : Word :=
  0#7 ++ BitVec.ofBool s.phase.bit ++ s.activeCh ++ s.initCount ++ BitVec.ofBool s.run ++ 0#2 ++
    BitVec.ofBool s.errUninit ++ BitVec.ofBool s.errAddr ++ BitVec.ofBool s.errSeq ++ BitVec.ofBool s.errCh ++
    BitVec.ofBool s.errOp

end Sys2Proof.Machine
end

