-- ==== Sys2Proof/Machine/Operands.lean ====
section
/-!
DEFINITION. What the operands of a command select: the port of an address (43_gpio_toggle.md R120), whether an angle is
valid (30_encoding.md R65), the slot of a channel, and the duration of an angle (42_duration_mapper.md R112).
-/

namespace Sys2Proof.Machine

/-- `LookupPort(addr)` from port p on: the index of the first pair whose direction register has this address. -/
def lookupFrom (addr : RegAddr) : Nat → List PortAddr → Option Nat
  | _, [] => none
  | p, pair :: rest => if pair.dirAddr = addr then some p else lookupFrom addr (p + 1) rest

/-- `LookupPort(addr)` (43_gpio_toggle.md R120). It is a function because a well-formed configuration's addresses are
distinct; an output register's address finds no port. -/
def lookupPort (c : Config) (addr : RegAddr) : Option Nat := lookupFrom addr 0 c.ports

/-- An ANGLE field is valid exactly when it is at most 180 as an unsigned number (30_encoding.md R65). -/
def angleValid (angle : BitVec 16) : Bool := decide (angle.toNat ≤ 180)

/-- The 8 bits of a valid angle that the slot stores, `angle[7:0]` (40_host_commands.md R79). -/
def storedAngle (angle : BitVec 16) : Byte := angle.extractLsb' 0 8

/-- `duration(a) = a * K + BASE`, exact (42_duration_mapper.md R112). -/
def duration (c : Config) (angle : Nat) : Nat := angle * c.k + c.base

/-- The channel after c in the round robin, `(c + 1) mod N_CH` (41_timer_event.md R96). -/
def nextChannel (c : Config) (ch : Chan) : Chan := BitVec.ofNat 8 ((ch.toNat + 1) % c.nCh)

/-- `SLOT[c]` (10_state.md R15), none where the table has no such entry. -/
def State.slot? (s : State) (ch : Nat) : Option Slot := s.slots[ch]?

/-- Channel c is initialized exactly when `c < INIT_COUNT` (10_state.md R25). -/
def State.initialized (s : State) (ch : Chan) : Bool := decide (ch.toNat < s.initCount.toNat)

end Sys2Proof.Machine
end

