-- ==== Sys2Proof/Machine/Ops.lean ====
section
/-!
DEFINITION. The named operations every meaning is made of: running under a well-formed configuration, rejection (the
SPS's only exception, 60_exceptions.md R130), the slot writes, the GPIO bit writes, the timer setup and the pin drive.
In a step every read sees the state before it (00_scope.md R9); the operations composed here write different fields.
-/

namespace Sys2Proof.Machine

/-- The outcome of an effect under the state's configuration: a configuration that breaks 00_scope.md R7 is refused and
has no meaning (60_exceptions.md R133). -/
def underConfig (s : State) (effect : Except Fault State) : Host.Outcome State Fault Refusal :=
  if s.cfg.WellFormed then
    match effect with
    | .ok t => .next t
    | .error f => .fault f
  else .refused .illFormedConfiguration

/-- `raise Reject(code)`: the one flag, and nothing else (60_exceptions.md R130, R137). It saves no state and goes
nowhere, so there is no return from it (R139). -/
def reject (e : ErrFlag) (s : State) : Except Fault State := .ok (s.setFlag e)

/-- Replaces `SLOT[ch]` by a function of it. -/
def State.modifySlot (ch : Nat) (f : Slot → Slot) (s : State) : Except Fault State :=
  if ch < s.slots.length then .ok { s with slots := s.slots.modify ch f } else .error (.noSlot ch)

/-- `SLOT[ch].PIN <- pin` and `SLOT[ch].PORT <- p` (40_host_commands.md R78). -/
def State.bindSlot (ch : Nat) (pin : Pin) (port : Nat) (s : State) : Except Fault State :=
  s.modifySlot ch fun sl => { sl with pin := pin, port := BitVec.ofNat 3 port }

/-- `SLOT[ch].ANGLE <- a` (40_host_commands.md R79). -/
def State.setAngle (ch : Nat) (a : Byte) (s : State) : Except Fault State :=
  s.modifySlot ch fun sl => { sl with angle := a }

/-- A register with bit b written and the other seven kept (43_gpio_toggle.md R124). -/
def setBit (r : Byte) (b : Pin) (v : Bool) : Byte :=
  if v then r ||| (1#8 <<< b.toNat) else r &&& ~~~(1#8 <<< b.toNat)

/-- The single-bit write of a GPIO register, the only way one changes (43_gpio_toggle.md R124, 10_state.md R36). -/
def State.writeGpioBit (reg : GpioReg) (port : Nat) (b : Pin) (v : Bool) (s : State) : Except Fault State :=
  match reg with
  | .dir =>
    if port < s.dir.length then .ok { s with dir := s.dir.modify port fun r => setBit r b v }
    else .error (.noPort port)
  | .out =>
    if port < s.out.length then .ok { s with out := s.out.modify port fun r => setBit r b v }
    else .error (.noPort port)

/-- `COMPARE <- v`: the value is stored unchanged in W bits (00_scope.md R8, 42_duration_mapper.md R112). -/
def State.setCompare (v : Nat) (s : State) : Except Fault State :=
  if v < s.cfg.span then .ok { s with compare := v } else .error (.valueTooWide v)

/-- INIT's timer setup: `COMPARE <- INIT_COMPARE` and `RUN <- 1` (40_host_commands.md R85). COUNTER, ACTIVE_CH and
PHASE keep their values. -/
def State.startTimer (s : State) : Except Fault State :=
  (s.setCompare s.cfg.initCompare).map fun t => { t with run := true }

/-- `INIT_COUNT <- INIT_COUNT + 1` (40_host_commands.md R78). -/
def State.countInit (s : State) : State := { s with initCount := s.initCount + 1 }

/-- What an accepted INIT does: binds the slot, sets the direction bit, counts, and sets up the timer
(40_host_commands.md R78, 43_gpio_toggle.md R122). -/
def acceptInit (ch : Chan) (pin : Pin) (port : Nat) (s : State) : Except Fault State := do
  let s ← s.bindSlot ch.toNat pin port
  let s ← s.writeGpioBit .dir port pin true
  s.countInit.startTimer

/-- `DrivePin(c, v)` (43_gpio_toggle.md R123): writes the output bit of an initialized channel, and no pin for a channel
that is not initialized. -/
def drivePin (ch : Chan) (sl : Slot) (v : Bool) (s : State) : Except Fault State :=
  if s.initialized ch then s.writeGpioBit .out sl.port.toNat sl.pin v else .ok s

/-- The write of the sequencer pair (10_state.md R26). -/
def State.setSequencer (ch : Chan) (ph : Phase) (s : State) : State := { s with activeCh := ch, phase := ph }

/-- `COUNTER <- n` (41_timer_event.md R91). -/
def State.setCounter (n : Nat) (s : State) : State := { s with counter := n }

/-- What the host has read (40_host_commands.md R82; log 5). -/
def State.giveHost (w : Word) (s : State) : State := { s with lastRead := some w }

/-- The rest of the total order, once its first step is taken (00_scope.md R10). -/
def State.withPending (as : List Action) (s : State) : State := { s with pending := as }

/-- Reset: every field of 10_state.md R13 at its value of R40, at once (70_reset_and_hazards.md R147). The configuration
stays, and so do the agents' remaining steps and what the host has read, which are no state of the SPS (log 16). -/
def State.afterReset (s : State) : State :=
  { State.resetWith s.cfg with pending := s.pending, lastRead := s.lastRead }

end Sys2Proof.Machine
end

