-- ==== Sys2Proof/Machine/Commands.lean ====
section
/-!
DEFINITION. The meanings of the host commands (40_host_commands.md): INIT, SETANG, the reserved command words and the
status read. A command takes no ticks and is complete when its step ends (R77).
-/

namespace Sys2Proof.Machine

/-- INIT's checks in their order of priority (60_exceptions.md R132), then its effect (40_host_commands.md R78). -/
def initCommand (ch : Chan) (pin : Pin) (addr : RegAddr) (s : State) : Except Fault State :=
  if s.cfg.nCh ≤ ch.toNat then reject .ch s
  else if ch ≠ s.initCount then reject .seq s
  else
    match lookupPort s.cfg addr with
    | none => reject .addr s
    | some port => acceptInit ch pin port s

/-- SETANG's checks in their order of priority (60_exceptions.md R132); an angle above 180 is ignored with no flag, and
any other is stored (40_host_commands.md R79). -/
def setangCommand (ch : Chan) (angle : BitVec 16) (s : State) : Except Fault State :=
  if s.cfg.nCh ≤ ch.toNat then reject .ch s
  else if s.initCount.toNat ≤ ch.toNat then reject .uninit s
  else if angleValid angle then s.setAngle ch.toNat (storedAngle angle)
  else .ok s

/-- INIT (40_host_commands.md R78). -/
def execInit (ch : Chan) (pin : Pin) (addr : RegAddr) (s : State) : Host.Outcome State Fault Refusal :=
  underConfig s (initCommand ch pin addr s)

/-- SETANG (40_host_commands.md R79). -/
def execSetang (ch : Chan) (angle : BitVec 16) (s : State) : Host.Outcome State Fault Refusal :=
  underConfig s (setangCommand ch angle s)

/-- RESERVED_OP0: `raise Reject(ERR_OP)` (40_host_commands.md R80). -/
def execReservedOp0 (_rest : BitVec 28) (s : State) : Host.Outcome State Fault Refusal :=
  underConfig s (reject .op s)

/-- RESERVED_OP3: `raise Reject(ERR_OP)` (40_host_commands.md R80). -/
def execReservedOp3 (_rest : BitVec 28) (s : State) : Host.Outcome State Fault Refusal :=
  underConfig s (reject .op s)

/-- RESERVED_OP4: `raise Reject(ERR_OP)` (40_host_commands.md R80). -/
def execReservedOp4 (_rest : BitVec 28) (s : State) : Host.Outcome State Fault Refusal :=
  underConfig s (reject .op s)

/-- RESERVED_OP5: `raise Reject(ERR_OP)` (40_host_commands.md R80). -/
def execReservedOp5 (_rest : BitVec 28) (s : State) : Host.Outcome State Fault Refusal :=
  underConfig s (reject .op s)

/-- RESERVED_OP6: `raise Reject(ERR_OP)` (40_host_commands.md R80). -/
def execReservedOp6 (_rest : BitVec 28) (s : State) : Host.Outcome State Fault Refusal :=
  underConfig s (reject .op s)

/-- RESERVED_OP7: `raise Reject(ERR_OP)` (40_host_commands.md R80). -/
def execReservedOp7 (_rest : BitVec 28) (s : State) : Host.Outcome State Fault Refusal :=
  underConfig s (reject .op s)

/-- RESERVED_OP8: `raise Reject(ERR_OP)` (40_host_commands.md R80). -/
def execReservedOp8 (_rest : BitVec 28) (s : State) : Host.Outcome State Fault Refusal :=
  underConfig s (reject .op s)

/-- RESERVED_OP9: `raise Reject(ERR_OP)` (40_host_commands.md R80). -/
def execReservedOp9 (_rest : BitVec 28) (s : State) : Host.Outcome State Fault Refusal :=
  underConfig s (reject .op s)

/-- RESERVED_OPA: `raise Reject(ERR_OP)` (40_host_commands.md R80). -/
def execReservedOpA (_rest : BitVec 28) (s : State) : Host.Outcome State Fault Refusal :=
  underConfig s (reject .op s)

/-- RESERVED_OPB: `raise Reject(ERR_OP)` (40_host_commands.md R80). -/
def execReservedOpB (_rest : BitVec 28) (s : State) : Host.Outcome State Fault Refusal :=
  underConfig s (reject .op s)

/-- RESERVED_OPC: `raise Reject(ERR_OP)` (40_host_commands.md R80). -/
def execReservedOpC (_rest : BitVec 28) (s : State) : Host.Outcome State Fault Refusal :=
  underConfig s (reject .op s)

/-- RESERVED_OPD: `raise Reject(ERR_OP)` (40_host_commands.md R80). -/
def execReservedOpD (_rest : BitVec 28) (s : State) : Host.Outcome State Fault Refusal :=
  underConfig s (reject .op s)

/-- RESERVED_OPE: `raise Reject(ERR_OP)` (40_host_commands.md R80). -/
def execReservedOpE (_rest : BitVec 28) (s : State) : Host.Outcome State Fault Refusal :=
  underConfig s (reject .op s)

/-- RESERVED_OPF: `raise Reject(ERR_OP)` (40_host_commands.md R80). -/
def execReservedOpF (_rest : BitVec 28) (s : State) : Host.Outcome State Fault Refusal :=
  underConfig s (reject .op s)

/-- RESERVED_INIT_B19: `raise Reject(ERR_OP)`, the fields not examined (40_host_commands.md R81). -/
def execReservedInitB19 (_ch : Chan) (_pin : Pin) (_addr : RegAddr) (s : State) : Host.Outcome State Fault Refusal :=
  underConfig s (reject .op s)

/-- RESERVED_SETANG_B19: `raise Reject(ERR_OP)`, the fields not examined (40_host_commands.md R81). -/
def execReservedSetangB19 (_ch : Chan) (_rsv : BitVec 4) (_angle : BitVec 16) (s : State) :
    Host.Outcome State Fault Refusal :=
  underConfig s (reject .op s)

/-- RESERVED_SETANG_B18: `raise Reject(ERR_OP)`, the fields not examined (40_host_commands.md R81). -/
def execReservedSetangB18 (_ch : Chan) (_rsv : BitVec 4) (_angle : BitVec 16) (s : State) :
    Host.Outcome State Fault Refusal :=
  underConfig s (reject .op s)

/-- RESERVED_SETANG_B17: `raise Reject(ERR_OP)`, the fields not examined (40_host_commands.md R81). -/
def execReservedSetangB17 (_ch : Chan) (_rsv : BitVec 4) (_angle : BitVec 16) (s : State) :
    Host.Outcome State Fault Refusal :=
  underConfig s (reject .op s)

/-- RESERVED_SETANG_B16: `raise Reject(ERR_OP)`, the fields not examined (40_host_commands.md R81). -/
def execReservedSetangB16 (_ch : Chan) (_rsv : BitVec 4) (_angle : BitVec 16) (s : State) :
    Host.Outcome State Fault Refusal :=
  underConfig s (reject .op s)

/-- RDSTAT: the host gets STATUS; no field of the SPS changes (40_host_commands.md R82). -/
def execRdstat (s : State) : Host.Outcome State Fault Refusal :=
  underConfig s (.ok (s.giveHost s.status))

/-- A 4-byte host write to STATUS: a no-op (40_host_commands.md R83). -/
def hostWriteStatus (s : State) : Host.Outcome State Fault Refusal := underConfig s (.ok s)

end Sys2Proof.Machine
end

