-- ==== Sys2Proof/Machine/Timer.lean ====
section
/-!
DEFINITION. The meanings of the timer's step TICK and of the compare-match EVENT it raises (41_timer_event.md).
-/

namespace Sys2Proof.Machine

/-- EVENT, the scheduler's only state transition (41_timer_event.md R94): drives the active channel's pin to the level
PHASE names, reloads COMPARE with the duration of the angle stored now (R97), and moves the sequencer (R95). -/
def event (s : State) : Except Fault State :=
  match s.slot? s.activeCh.toNat with
  | none => .error (.noSlot s.activeCh.toNat)
  | some sl =>
    match s.phase with
    | .high => do
      let t ← drivePin s.activeCh sl true s
      let t ← t.setCompare (duration s.cfg sl.angle.toNat)
      .ok (t.setSequencer s.activeCh .low)
    | .low => do
      let t ← drivePin s.activeCh sl false s
      let t ← t.setCompare (duration s.cfg sl.angle.toNat)
      .ok (t.setSequencer (nextChannel s.cfg s.activeCh) .high)

/-- COUNTER + 1 modulo 2^W (41_timer_event.md R91). -/
def nextCount (s : State) : Nat := (s.counter + 1) % s.cfg.span

/-- TICK (41_timer_event.md R91): nothing while RUN = 0; a count; or, on a match with COMPARE, the counter cleared and
EVENT run in this same step (R98). -/
def timerTick (s : State) : Except Fault State :=
  if s.run then
    if nextCount s = s.compare then event (s.setCounter 0) else .ok (s.setCounter (nextCount s))
  else .ok s

/-- TICK (41_timer_event.md R91). -/
def execTick (s : State) : Host.Outcome State Fault Refusal := underConfig s (timerTick s)

/-- EVENT (41_timer_event.md R94). A run takes it only inside a TICK that matches (R98; log 11). -/
def execEvent (s : State) : Host.Outcome State Fault Refusal := underConfig s (event s)

end Sys2Proof.Machine
end

