-- ==== Sys2Proof/Machine/Dispatch.lean ====
section
/-!
DEFINITION. Dispatch: one arm per constructor of Instr, each one direct call of that instruction's meaning.
-/

namespace Sys2Proof.Machine

def exec (i : Instr) (s : State) : Host.Outcome State Fault Refusal :=
  match i with
  | .init ch pin addr => Sys2Proof.Machine.execInit ch pin addr s
  | .setang ch angle => Sys2Proof.Machine.execSetang ch angle s
  | .reservedOp0 rest => Sys2Proof.Machine.execReservedOp0 rest s
  | .reservedOp3 rest => Sys2Proof.Machine.execReservedOp3 rest s
  | .reservedOp4 rest => Sys2Proof.Machine.execReservedOp4 rest s
  | .reservedOp5 rest => Sys2Proof.Machine.execReservedOp5 rest s
  | .reservedOp6 rest => Sys2Proof.Machine.execReservedOp6 rest s
  | .reservedOp7 rest => Sys2Proof.Machine.execReservedOp7 rest s
  | .reservedOp8 rest => Sys2Proof.Machine.execReservedOp8 rest s
  | .reservedOp9 rest => Sys2Proof.Machine.execReservedOp9 rest s
  | .reservedOpA rest => Sys2Proof.Machine.execReservedOpA rest s
  | .reservedOpB rest => Sys2Proof.Machine.execReservedOpB rest s
  | .reservedOpC rest => Sys2Proof.Machine.execReservedOpC rest s
  | .reservedOpD rest => Sys2Proof.Machine.execReservedOpD rest s
  | .reservedOpE rest => Sys2Proof.Machine.execReservedOpE rest s
  | .reservedOpF rest => Sys2Proof.Machine.execReservedOpF rest s
  | .reservedInitB19 ch pin addr => Sys2Proof.Machine.execReservedInitB19 ch pin addr s
  | .reservedSetangB19 ch rsv angle => Sys2Proof.Machine.execReservedSetangB19 ch rsv angle s
  | .reservedSetangB18 ch rsv angle => Sys2Proof.Machine.execReservedSetangB18 ch rsv angle s
  | .reservedSetangB17 ch rsv angle => Sys2Proof.Machine.execReservedSetangB17 ch rsv angle s
  | .reservedSetangB16 ch rsv angle => Sys2Proof.Machine.execReservedSetangB16 ch rsv angle s
  | .rdstat => Sys2Proof.Machine.execRdstat s
  | .tick => Sys2Proof.Machine.execTick s
  | .event => Sys2Proof.Machine.execEvent s

end Sys2Proof.Machine
end

