-- ==== Sys2Proof/Machine/Gpio.lean ====
section
/-!
DEFINITION. The GPIO ports as the host and the pins see them: one bit of a register (10_state.md R36), the host's
external write (43_gpio_toggle.md R126) and the level of a pin (R127).
-/

namespace Sys2Proof.Machine

/-- `DIR[p][b]` (00_scope.md R9); a bit that does not exist reads as 0. -/
def State.dirBit (s : State) (port bit : Nat) : Bool := (s.dir.getD port 0).getLsbD bit

/-- `OUT[p][b]` (00_scope.md R9); a bit that does not exist reads as 0. -/
def State.outBit (s : State) (port bit : Nat) : Bool := (s.out.getD port 0).getLsbD bit

/-- The level of a physical pin (43_gpio_toggle.md R127). -/
inductive Level where
  /-- Driven low. -/
  | low
  /-- Driven high. -/
  | high
  /-- Not driven by the port; the electrical meaning is outside the model (91_not_in_source.md N9). -/
  | z
  deriving DecidableEq, Repr

/-- `level(p, b)` (43_gpio_toggle.md R127). -/
def State.pinLevel (s : State) (port bit : Nat) : Level :=
  if s.dirBit port bit then (if s.outBit port bit then .high else .low) else .z

/-- The host writes one bit of DIR[p] or OUT[p] (43_gpio_toggle.md R126). A port the configuration does not have is
refused by name (log 7). -/
def hostGpioWrite (reg : GpioReg) (port : Nat) (bit : Pin) (v : Bool) (s : State) : Host.Outcome State Fault Refusal :=
  if port < s.cfg.nPorts then underConfig s (s.writeGpioBit reg port bit v) else .refused (.noSuchPort port)

end Sys2Proof.Machine
end

