-- ==== Sys2Proof/Machine/Bus.lean ====
section
/-!
DEFINITION. What one step of an agent does: the host window (20_memory.md R44, R45, R48), the host's GPIO write
(43_gpio_toggle.md R126), the timer's tick, and reset (70_reset_and_hazards.md R147).
-/

namespace Sys2Proof.Machine

/-- The bus address of CMD, offset 0x0 (20_memory.md R48). -/
def cmdAddr (c : Config) : Nat := c.blockBase

/-- The bus address of STATUS, offset 0x4 (20_memory.md R48). -/
def statusAddr (c : Config) : Nat := c.blockBase + 4

/-- A host write: four bytes at CMD run the command they decode to (40_host_commands.md R76), four bytes at STATUS are a
no-op (R83), and any other write is refused (20_memory.md R45). -/
def hostWrite (addr : Nat) (bytes : List Byte) (s : State) : Host.Outcome State Fault Refusal :=
  if addr = cmdAddr s.cfg then
    match decodeBytes bytes with
    | .ok i => exec i s
    | .error _ => .refused .undefinedHostAccess
  else if addr = statusAddr s.cfg ∧ bytes.length = 4 then hostWriteStatus s
  else .refused .undefinedHostAccess

/-- A host read: four bytes at STATUS are the status read (40_host_commands.md R82), and any other read is refused
(20_memory.md R45). -/
def hostRead (addr size : Nat) (s : State) : Host.Outcome State Fault Refusal :=
  if addr = statusAddr s.cfg ∧ size = 4 then exec .rdstat s else .refused .undefinedHostAccess

/-- Reset as a step of the platform (70_reset_and_hazards.md R147). -/
def platformReset (s : State) : Host.Outcome State Fault Refusal := underConfig s (.ok s.afterReset)

/-- One atomic step of an agent (00_scope.md R10). -/
def perform (a : Action) (s : State) : Host.Outcome State Fault Refusal :=
  match a with
  | .write addr bytes => hostWrite addr bytes s
  | .read addr size => hostRead addr size s
  | .gpio reg port bit v => hostGpioWrite reg port bit v s
  | .tick => exec .tick s
  | .reset => platformReset s

/-- The next step of the total order: the first pending action, or, when no other agent has a step left, a tick of the
timer, which is always enabled (41_timer_event.md R109; log 3). -/
def takeNext (s : State) : Host.Outcome State Fault Refusal :=
  match s.pending with
  | [] => perform .tick s
  | a :: rest => perform a (s.withPending rest)

/-- The host's write of a command word to CMD (40_host_commands.md R76). -/
def commandWrite (c : Config) (w : Word) : Action := .write (cmdAddr c) (bytesOfWord w)

/-- The host's status read (40_host_commands.md R82). -/
def statusRead (c : Config) : Action := .read (statusAddr c) 4

end Sys2Proof.Machine
end

