-- ==== Sys2Proof/Machine/Step.lean ====
section
/-!
DEFINITION. One step of the machine: one atomic step of one agent (00_scope.md R10). The SPS fetches no instructions
(20_memory.md R56): a command is consumed in the step that writes it to CMD.
-/

namespace Sys2Proof.Machine

/-- One step of the total order of all agents' steps (00_scope.md R10, 20_memory.md R52). -/
def step (s : State) : Host.Outcome State Fault Refusal := takeNext s

/-- The state in which the host's next step writes this command word to CMD; nothing else changes (log 4). -/
def State.withFetchWord (s : State) (nbits w : Nat) : State :=
  s.withPending (commandWrite s.cfg (tableWord nbits w) :: s.pending)

end Sys2Proof.Machine
end

