-- ==== Sys2Proof/Machine/Harness.lean ====
section
/-!
DEFINITION. The assembler of 30_encoding.md R72, R73 and the harness forms of R74: program text to command words, and
program text played on the machine. Nothing of it is state of the SPS.
-/

namespace Sys2Proof.Machine

/-- `INIT ch, pin, addr` assembles to `0x10000000 | ch << 20 | pin << 16 | addr`; an operand outside its range is an
assembly error, not a word (30_encoding.md R72). -/
def assembleInit (ch pin addr : Int) : Option Word :=
  if (0 ≤ ch ∧ ch ≤ 255) ∧ (0 ≤ pin ∧ pin ≤ 7) ∧ (0 ≤ addr ∧ addr ≤ 0xFFFF) then
    some (BitVec.ofNat 32 (0x10000000 ||| ch.toNat <<< 20 ||| pin.toNat <<< 16 ||| addr.toNat))
  else none

/-- An angle operand as 16 bits: -m stands for `0x10000 - m`, 1 <= m <= 0x8000 (30_encoding.md R72). -/
def assembleAngle (angle : Int) : Option Nat :=
  if 0 ≤ angle ∧ angle ≤ 0xFFFF then some angle.toNat
  else if -0x8000 ≤ angle ∧ angle ≤ -1 then some (0x10000 + angle).toNat
  else none

/-- `SETANG ch, angle` assembles to `0x20000000 | ch << 20 | angle` (30_encoding.md R72). -/
def assembleSetang (ch angle : Int) : Option Word :=
  match assembleAngle angle with
  | none => none
  | some a =>
    if 0 ≤ ch ∧ ch ≤ 255 then some (BitVec.ofNat 32 (0x20000000 ||| ch.toNat <<< 20 ||| a)) else none

/-- `.word v` emits v unchanged, 0 <= v <= 0xFFFFFFFF (30_encoding.md R73). -/
def assembleWord (v : Int) : Option Word :=
  if 0 ≤ v ∧ v ≤ 0xFFFFFFFF then some (BitVec.ofNat 32 v.toNat) else none

/-- A statement of the program text (30_encoding.md R72 to R74). -/
inductive Stmt where
  | init (ch pin addr : Int)
  | setang (ch angle : Int)
  | word (v : Int)
  | rdstat
  /-- `GPIOW p, b, v`: one external host write of bit b of OUT[p]. -/
  | gpiow (p b v : Nat)
  /-- `GPIOD p, b, v`: the same for DIR[p]. -/
  | gpiod (p b v : Nat)
  /-- `WAIT n`: exactly n TICK steps with no host step between them. -/
  | wait (n : Nat)
  deriving DecidableEq, Repr

/-- A line of program text with its optional prefix `AT t:` (30_encoding.md R74). -/
structure Line where
  atTick : Option Nat
  stmt : Stmt
  deriving DecidableEq, Repr

/-- One external host write of a GPIO bit; b and v outside their ranges are errors of the text. -/
def gpioAction (reg : GpioReg) (p b v : Nat) : Option Action :=
  if b ≤ 7 ∧ v ≤ 1 then some (.gpio reg p (BitVec.ofNat 3 b) (v == 1)) else none

/-- The agents' steps a statement stands for (30_encoding.md R74); none is an error of the text. -/
def Stmt.actions (c : Config) : Stmt → Option (List Action)
  | .init ch pin addr => (assembleInit ch pin addr).map fun w => [commandWrite c w]
  | .setang ch angle => (assembleSetang ch angle).map fun w => [commandWrite c w]
  | .word v => (assembleWord v).map fun w => [commandWrite c w]
  | .rdstat => some [statusRead c]
  | .gpiow p b v => (gpioAction .out p b v).map fun a => [a]
  | .gpiod p b v => (gpioAction .dir p b v).map fun a => [a]
  | .wait n => some (List.replicate n .tick)

/-- A program part-way through: the machine, and the ticks counted since RUN was set (00_scope.md R11). -/
structure Played where
  state : State
  ticks : Nat
  deriving DecidableEq, Repr

/-- Plays one agent's step; none where the machine gives it no next state. A tick counts once RUN is set
(00_scope.md R11; log 14). -/
def playAction (p : Played) (a : Action) : Option Played :=
  match step (p.state.withPending (a :: p.state.pending)) with
  | .next s => some ⟨s, if a = .tick ∧ p.state.run then p.ticks + 1 else p.ticks⟩
  | .fault _ => none
  | .refused _ => none

/-- Plays steps one after another. -/
def playActions (p : Played) : List Action → Option Played
  | [] => some p
  | a :: rest => (playAction p a).bind fun q => playActions q rest

/-- `AT t:` lets the ticks up to tick t pass (30_encoding.md R74). A tick that has gone by, or one that never comes since
RUN is not set, is an error of the text (log 14). -/
def playAt (p : Played) : Option Nat → Option Played
  | none => some p
  | some t =>
    if t = p.ticks then some p
    else if p.ticks < t ∧ p.state.run then playActions p (List.replicate (t - p.ticks) .tick)
    else none

/-- Plays a line: its prefix, then its statement. -/
def playLine (p : Played) (l : Line) : Option Played :=
  (playAt p l.atTick).bind fun q => (l.stmt.actions q.state.cfg).bind fun as => playActions q as

/-- Plays a program from a state (95_test_vectors.md section 4). -/
def playProgram (p : Played) : List Line → Option Played
  | [] => some p
  | l :: rest => (playLine p l).bind fun q => playProgram q rest

end Sys2Proof.Machine
end

