-- ==== Sys2Proof/Safety.lean ====
section
/-!
DEFINITION. What the claims about the SPS are stated in: the invariant of 10_state.md R39, what a host may do
(20_memory.md R44, R45), and the measures of the timing laws (41_timer_event.md R92, R103, R104, R105).
-/

namespace Sys2Proof.Machine

/-- The table and the GPIO lists have the length the configuration gives them (10_state.md R15, R36). -/
abbrev State.Shape (s : State) : Prop :=
  s.slots.length = s.cfg.nCh ∧ s.dir.length = s.cfg.nPorts ∧ s.out.length = s.cfg.nPorts

/-- The invariant of 10_state.md R39 (its seven points in order), with the widths of R13, the shape of the tables and a
well-formed configuration (00_scope.md R7). The second half of R39's point 6 speaks of a run's past and is no predicate of
a state. -/
structure State.Inv (s : State) : Prop where
  config : s.cfg.WellFormed
  shape : s.Shape
  angles : ∀ sl ∈ s.slots, sl.angle.toNat ≤ 180
  count : s.initCount.toNat ≤ s.cfg.nCh
  active : s.activeCh.toNat ≤ s.cfg.nCh - 1
  running : s.run = true ↔ 1 ≤ s.initCount.toNat
  compareSet : s.run = true → 1 ≤ s.compare
  stopped : s.run = false → s.counter = 0 ∧ s.activeCh = 0 ∧ s.phase = .low ∧ s.compare = 0
  ports : ∀ c < s.initCount.toNat, ∀ sl ∈ s.slot? c, sl.port.toNat < s.cfg.nPorts
  widths : s.counter < s.cfg.span ∧ s.compare < s.cfg.span

/-- An agent's step that the spec gives a meaning: the accesses of 20_memory.md R44 and R45's no-op, a write of a GPIO
bit that exists, a tick, reset. -/
abbrev Action.Defined (c : Config) : Action → Prop
  | .write addr bytes => bytes.length = 4 ∧ (addr = cmdAddr c ∨ addr = statusAddr c)
  | .read addr size => addr = statusAddr c ∧ size = 4
  | .gpio _ port _ _ => port < c.nPorts
  | .tick => True
  | .reset => True

/-- The next step of the run is not a reset (70_reset_and_hazards.md R147). -/
abbrev State.NotResetNext (s : State) : Prop := s.pending.head? ≠ some .reset

/-- The next step of the run writes a word to CMD that is accepted as an INIT (40_host_commands.md R78). -/
abbrev State.AcceptedInitNext (s : State) : Prop :=
  ∃ bytes rest ch pin addr port, s.pending = .write (cmdAddr s.cfg) bytes :: rest ∧
    decodeBytes bytes = .ok (.init ch pin addr) ∧ ch.toNat < s.cfg.nCh ∧ ch = s.initCount ∧
    lookupPort s.cfg addr = some port

/-- The two states differ at most in the GPIO registers, whose tables have the same length. -/
abbrev State.AgreeOffPins (s t : State) : Prop :=
  t = { s with dir := t.dir, out := t.out } ∧ t.dir.length = s.dir.length ∧ t.out.length = s.out.length

/-- The ticks from here to the next EVENT while no step writes COMPARE: `(T - c0) mod 2^W` if that is not zero, and 2^W
otherwise (41_timer_event.md R92). -/
def State.ticksToEvent (s : State) : Nat :=
  let m := (((s.compare : Int) - (s.counter : Int)) % (s.cfg.span : Int)).toNat
  if m = 0 then s.cfg.span else m

/-- k compare-match events one after another, the time between them left out (41_timer_event.md R103). -/
def takeEvents : Nat → State → Host.Outcome State Fault Refusal
  | 0, s => .next s
  | k + 1, s =>
    match exec .event s with
    | .next t => takeEvents k t
    | .fault f => .fault f
    | .refused r => .refused r

/-- The ticks of a sweep, `sum over c of 2 x duration(a_c)` (41_timer_event.md R105). -/
def State.sweepTicks (s : State) : Nat := (s.slots.map fun sl => 2 * duration s.cfg sl.angle.toNat).sum

/-- The tick of a sweep at which channel c's pulse begins, counted from channel 0's: the slots of the channels before it
(41_timer_event.md R104, R105). -/
def State.pulseStart (s : State) (c : Nat) : Nat :=
  ((s.slots.take c).map fun sl => 2 * duration s.cfg sl.angle.toNat).sum

end Sys2Proof.Machine
end

