-- ==== Sys2Proof/Certificates/Slice0/Obligations.lean ====
section
/-!
DEFINITION. The statements for the provers. Each docstring names the rule of spec/ it formalises. They hold for every
state and every well-formed configuration (00_scope.md R6) unless they name one; none rests on the configuration that
`State.reset` names (log 2).
-/

open Sys2Proof Sys2Proof.Machine

/-! ### Encoding (30_encoding.md) -/

/-- Decoding the word of a well-formed instruction gives it back, every field at every value (R61, R67, R68). Which of the
overlapping RESERVED_SETANG rows a word belongs to is the model's choice (log 10). -/
def Obligations.DecodeInvertsEncode : Prop :=
  ∀ (i : Instr) (w : Word), i.WellFormed → encode i = some w → decode w = i

/-- Every word is the word of the instruction it decodes to: no bit of a word is dropped (R61, R68). That the instruction
is well formed says for the four RESERVED_SETANG rows that the highest set reserved bit names the row, which is the
model's choice (log 10), and holds of every other row by definition. -/
def Obligations.EncodeInvertsDecode : Prop :=
  ∀ w : Word, encode (decode w) = some w ∧ (decode w).WellFormed

/-- The decode function of R68, case by case. -/
def Obligations.DecodeFollowsOpcodeMap : Prop :=
  ∀ w : Word,
    (w.extractLsb' 28 4 = 0b0001#4 → w.getLsbD 19 = false →
      decode w = .init (w.extractLsb' 20 8) (w.extractLsb' 16 3) (w.extractLsb' 0 16)) ∧
    (w.extractLsb' 28 4 = 0b0001#4 → w.getLsbD 19 = true → (decode w).Reserved) ∧
    (w.extractLsb' 28 4 = 0b0010#4 → w.extractLsb' 16 4 = 0#4 →
      decode w = .setang (w.extractLsb' 20 8) (w.extractLsb' 0 16)) ∧
    (w.extractLsb' 28 4 = 0b0010#4 → w.extractLsb' 16 4 ≠ 0#4 → (decode w).Reserved) ∧
    (w.extractLsb' 28 4 ≠ 0b0001#4 → w.extractLsb' 28 4 ≠ 0b0010#4 → (decode w).Reserved)

/-- The mask/match pairs and the opcode map of R67: a word selects INIT, or SETANG, exactly when it matches the row
under its mask, and every other opcode is reserved. -/
def Obligations.MaskSelectsCommand : Prop :=
  ∀ w : Word,
    ((∃ ch pin addr, decode w = .init ch pin addr) ↔ w &&& 0xF0080000 = 0x10000000) ∧
    ((∃ ch angle, decode w = .setang ch angle) ↔ w &&& 0xF00F0000 = 0x20000000) ∧
    (w.extractLsb' 28 4 ≠ 0b0001#4 → w.extractLsb' 28 4 ≠ 0b0010#4 → (decode w).Reserved)

/-- Words of 95_test_vectors.md section 3.1 decode to what that table says. -/
def Obligations.SpecWordsDecode : Prop :=
  decode 0x10000024 = .init 0 0 0x0024 ∧
  decode 0x10070030 = .init 0 7 0x0030 ∧
  decode 0x1FF00024 = .init 255 0 0x0024 ∧
  decode 0x201000B4 = .setang 1 180 ∧
  decode 0x2000FFFF = .setang 0 0xFFFF ∧
  (decode 0x10080024).Reserved ∧ (decode 0x2001005A).Reserved ∧ (decode 0xFFFFFFFF).Reserved

/-- The byte lanes of 20_memory.md R41: lane i holds bits 8i+7..8i, four lanes carry the word, and no other number of
bytes is a command word (30_encoding.md R58). -/
def Obligations.ByteLanesCarryTheWord : Prop :=
  (∀ w : Word, decodeBytes (bytesOfWord w) = .ok (decode w)) ∧
  (∀ (w : Word) (i : Nat), i < 4 → (bytesOfWord w)[i]? = some (w.extractLsb' (8 * i) 8)) ∧
  (∀ bytes : List Byte, bytes.length ≠ 4 → ∃ e, decodeBytes bytes = .error e)

/-- The assembler of R72: operands in range give the word of the command with those operands (a negative angle as
`0x10000 - m`), and an operand outside its range gives no word. -/
def Obligations.AssemblerEmitsTheCommand : Prop :=
  (∀ ch pin addr : Int, 0 ≤ ch → ch ≤ 255 → 0 ≤ pin → pin ≤ 7 → 0 ≤ addr → addr ≤ 0xFFFF →
    ∃ w, assembleInit ch pin addr = some w ∧
      (w.toNat : Int) = 0x10000000 + ch * 0x100000 + pin * 0x10000 + addr ∧
      decode w = .init (BitVec.ofInt 8 ch) (BitVec.ofInt 3 pin) (BitVec.ofInt 16 addr)) ∧
  (∀ ch pin addr : Int, (ch < 0 ∨ 255 < ch ∨ pin < 0 ∨ 7 < pin ∨ addr < 0 ∨ 0xFFFF < addr) →
    assembleInit ch pin addr = none) ∧
  (∀ ch angle : Int, 0 ≤ ch → ch ≤ 255 → -0x8000 ≤ angle → angle ≤ 0xFFFF →
    ∃ w, assembleSetang ch angle = some w ∧
      (w.toNat : Int) = 0x20000000 + ch * 0x100000 + (if angle < 0 then 0x10000 + angle else angle) ∧
      decode w = .setang (BitVec.ofInt 8 ch) (BitVec.ofInt 16 angle)) ∧
  (∀ ch angle : Int, (ch < 0 ∨ 255 < ch ∨ angle < -0x8000 ∨ 0xFFFF < angle) → assembleSetang ch angle = none)

/-- R65: an angle is valid exactly when the field, read as unsigned, is at most 180, and reading it as two's complement
selects the same set. -/
def Obligations.SignedReadingSelectsTheSameAngles : Prop :=
  ∀ angle : BitVec 16,
    (angleValid angle = true ↔ angle.toNat ≤ 180) ∧
    (angleValid angle = true ↔ 0 ≤ angle.toInt ∧ angle.toInt ≤ 180)

/-! ### Host commands (40_host_commands.md) -/

/-- An accepted INIT (R78): it completes, binds the slot and keeps its angle, sets the one direction bit (43 R122), counts,
and sets up the timer; every other slot, direction bit and field keeps its value. -/
def Obligations.AcceptedInitEffect : Prop :=
  ∀ (s : State) (ch : Chan) (pin : Pin) (addr : RegAddr) (port : Nat) (pair : PortAddr),
    s.cfg.WellFormed → s.Shape → ch.toNat < s.cfg.nCh → ch = s.initCount →
    s.cfg.ports[port]? = some pair → pair.dirAddr = addr →
    ∃ t, exec (.init ch pin addr) s = .next t ∧
      (∃ sl, s.slot? ch.toNat = some sl ∧
        t.slot? ch.toNat = some { pin := pin, port := BitVec.ofNat 3 port, angle := sl.angle }) ∧
      (BitVec.ofNat 3 port).toNat = port ∧
      (∀ c, c ≠ ch.toNat → t.slot? c = s.slot? c) ∧
      (∀ q b, t.dirBit q b = if q = port ∧ b = pin.toNat then true else s.dirBit q b) ∧
      t.dir.length = s.dir.length ∧
      t.initCount.toNat = s.initCount.toNat + 1 ∧
      t = { s with slots := t.slots, dir := t.dir, initCount := t.initCount,
                   compare := s.cfg.initCompare, run := true }

/-- A rejected INIT (R78, 60 R132): the first check that fails sets its flag, and nothing else changes. -/
def Obligations.RejectedInitSetsOneFlag : Prop :=
  ∀ (s : State) (ch : Chan) (pin : Pin) (addr : RegAddr), s.cfg.WellFormed →
    (s.cfg.nCh ≤ ch.toNat → exec (.init ch pin addr) s = .next { s with errCh := true }) ∧
    (ch.toNat < s.cfg.nCh → ch ≠ s.initCount → exec (.init ch pin addr) s = .next { s with errSeq := true }) ∧
    (ch.toNat < s.cfg.nCh → ch = s.initCount → (∀ pair ∈ s.cfg.ports, pair.dirAddr ≠ addr) →
      exec (.init ch pin addr) s = .next { s with errAddr := true })

/-- The port lookup of 43_gpio_toggle.md R120: it finds port p exactly for the address of DIR[p]; an output register's
address, or any other, finds none, and INIT rejects it with ERR_ADDR. -/
def Obligations.LookupFindsTheDirectionRegister : Prop :=
  ∀ c : Config, c.WellFormed →
    (∀ (addr : RegAddr) (p : Nat),
      lookupPort c addr = some p ↔ ∃ pair, c.ports[p]? = some pair ∧ pair.dirAddr = addr) ∧
    (∀ addr : RegAddr, lookupPort c addr = none ↔ ∀ pair ∈ c.ports, pair.dirAddr ≠ addr) ∧
    (∀ pair ∈ c.ports, lookupPort c pair.outAddr = none) ∧
    (∀ (s : State) (pin : Pin) (addr : RegAddr), s.cfg = c → s.initCount.toNat < c.nCh → lookupPort c addr = none →
      exec (.init s.initCount pin addr) s = .next { s with errAddr := true })

/-- The properties of SETANG (R86): on an initialized channel a valid angle is stored exactly and no other slot field
changes, an invalid one leaves the state as it is; otherwise the command is rejected and no slot changes. -/
def Obligations.SetangSetsOnlyItsAngle : Prop :=
  ∀ (s : State) (ch : Chan) (angle : BitVec 16), s.cfg.WellFormed →
    (s.Shape → ch.toNat < s.cfg.nCh → ch.toNat < s.initCount.toNat → angle.toNat ≤ 180 →
      ∃ t, exec (.setang ch angle) s = .next t ∧
        (∃ sl, s.slot? ch.toNat = some sl ∧
          t.slot? ch.toNat = some { sl with angle := BitVec.ofNat 8 angle.toNat }) ∧
        (∀ c, c ≠ ch.toNat → t.slot? c = s.slot? c) ∧
        t = { s with slots := t.slots }) ∧
    (ch.toNat < s.cfg.nCh → ch.toNat < s.initCount.toNat → 180 < angle.toNat →
      exec (.setang ch angle) s = .next s) ∧
    (s.cfg.nCh ≤ ch.toNat ∨ s.initCount.toNat ≤ ch.toNat →
      ∃ t, exec (.setang ch angle) s = .next t ∧ (t = { s with errCh := true } ∨ t = { s with errUninit := true }) ∧
        t.slots = s.slots)

/-- A rejected SETANG (R79, 60 R132): ERR_CH before ERR_UNINIT, whatever the angle, and nothing else changes. -/
def Obligations.RejectedSetangSetsOneFlag : Prop :=
  ∀ (s : State) (ch : Chan) (angle : BitVec 16), s.cfg.WellFormed →
    (s.cfg.nCh ≤ ch.toNat → exec (.setang ch angle) s = .next { s with errCh := true }) ∧
    (ch.toNat < s.cfg.nCh → s.initCount.toNat ≤ ch.toNat →
      exec (.setang ch angle) s = .next { s with errUninit := true })

/-- A word with a reserved opcode completes by setting ERR_OP, and nothing else changes (R80), with its example. -/
def Obligations.ReservedOpcodeIsRejected : Prop :=
  (∀ (s : State) (w : Word), s.cfg.WellFormed →
    w.extractLsb' 28 4 ≠ 0b0001#4 → w.extractLsb' 28 4 ≠ 0b0010#4 →
    exec (decode w) s = .next { s with errOp := true }) ∧
  (∀ c : Config, c.WellFormed →
    ∃ t, exec (decode 0x30000000) (State.resetWith c) = .next t ∧ t.status = 0x00000001)

/-- A word of format I or A with a reserved bit set completes by setting ERR_OP only, its other fields not examined
(R81), with its example. -/
def Obligations.ReservedBitsAreRejected : Prop :=
  (∀ (s : State) (w : Word), s.cfg.WellFormed →
    (w.extractLsb' 28 4 = 0b0001#4 ∧ w.getLsbD 19 = true) ∨
      (w.extractLsb' 28 4 = 0b0010#4 ∧ w.extractLsb' 16 4 ≠ 0#4) →
    exec (decode w) s = .next { s with errOp := true }) ∧
  (∀ c : Config, c.WellFormed →
    ∃ t, exec (decode 0x10080024) (State.resetWith c) = .next t ∧ t.status = 0x00000001 ∧ t.run = false)

/-- Each of the nineteen reserved rows of the opcode table completes by setting ERR_OP (R80, R81). -/
def Obligations.EveryReservedRowCompletes : Prop :=
  ∀ (i : Instr) (s : State), i.Reserved → s.cfg.WellFormed → exec i s = .next { s with errOp := true }

/-- A command word sets at most one flag, and one that sets a flag changes nothing else (60_exceptions.md R130, R132). -/
def Obligations.CommandSetsAtMostOneFlag : Prop :=
  ∀ (w : Word) (s t : State), exec (decode w) s = .next t →
    (∀ e, t.flag e = s.flag e) ∨
    t = { s with errOp := true } ∨ t = { s with errCh := true } ∨ t = { s with errSeq := true } ∨
    t = { s with errAddr := true } ∨ t = { s with errUninit := true }

/-- A set error flag stays set in every step but reset (10_state.md R34). -/
def Obligations.FlagsStickUntilReset : Prop :=
  ∀ (s t : State) (e : ErrFlag), s.NotResetNext → step s = .next t → s.flag e = true → t.flag e = true

/-- RDSTAT gives the host the status word and changes no field of the SPS (R82); the host's read at offset 0x4 is it. -/
def Obligations.StatusReadHasNoSideEffect : Prop :=
  (∀ s : State, s.cfg.WellFormed → exec .rdstat s = .next { s with lastRead := some s.status }) ∧
  (∀ (s : State) (rest : List Action), s.cfg.WellFormed → s.pending = .read (s.cfg.blockBase + 4) 4 :: rest →
    step s = .next { s with pending := rest, lastRead := some s.status })

/-- The fields of STATUS, bit by bit (10_state.md R33). -/
def Obligations.StatusWordLayout : Prop :=
  ∀ s : State,
    s.status.getLsbD 0 = s.errOp ∧ s.status.getLsbD 1 = s.errCh ∧ s.status.getLsbD 2 = s.errSeq ∧
    s.status.getLsbD 3 = s.errAddr ∧ s.status.getLsbD 4 = s.errUninit ∧
    s.status.extractLsb' 5 2 = 0#2 ∧ s.status.getLsbD 7 = s.run ∧
    s.status.extractLsb' 8 8 = s.initCount ∧ s.status.extractLsb' 16 8 = s.activeCh ∧
    (s.status.getLsbD 24 = true ↔ s.phase = .high) ∧ s.status.extractLsb' 25 7 = 0#7

/-- A 4-byte host write to STATUS is a no-op (R83). -/
def Obligations.StatusWriteIsANoOp : Prop :=
  ∀ (s : State) (bytes : List Byte) (rest : List Action), s.cfg.WellFormed → bytes.length = 4 →
    s.pending = .write (s.cfg.blockBase + 4) bytes :: rest → step s = .next { s with pending := rest }

/-- Every host access but the command write, the status read and the 4-byte write to STATUS is refused, and that write
changes nothing (20_memory.md R44, R45). R45 speaks of accesses to the window: that an access at an address outside it is
refused in the same way is the model's deduction (log 7), and so is that this refusal comes before the one of an
ill-formed configuration (log 8). -/
def Obligations.OtherHostAccessesAreRefused : Prop :=
  (∀ (s : State) (addr : Nat) (bytes : List Byte) (rest : List Action), s.pending = .write addr bytes :: rest →
    bytes.length ≠ 4 ∨ (addr ≠ s.cfg.blockBase ∧ addr ≠ s.cfg.blockBase + 4) →
    step s = .refused .undefinedHostAccess) ∧
  (∀ (s : State) (addr size : Nat) (rest : List Action), s.pending = .read addr size :: rest →
    size ≠ 4 ∨ addr ≠ s.cfg.blockBase + 4 → step s = .refused .undefinedHostAccess) ∧
  (∀ (s : State) (bytes : List Byte) (rest : List Action), s.cfg.WellFormed → bytes.length = 4 →
    s.pending = .write (s.cfg.blockBase + 4) bytes :: rest → step s = .next { s with pending := rest })

/-- SETANG with a valid angle is idempotent; an accepted INIT is not, its second writing is rejected with ERR_SEQ
(20_memory.md R49). -/
def Obligations.RepeatedCommands : Prop :=
  (∀ (s t : State) (ch : Chan) (angle : BitVec 16), angle.toNat ≤ 180 →
    exec (.setang ch angle) s = .next t → exec (.setang ch angle) t = .next t) ∧
  (∀ (s t : State) (ch : Chan) (pin : Pin) (addr : RegAddr), exec (.init ch pin addr) s = .next t →
    t.initCount ≠ s.initCount → exec (.init ch pin addr) t = .next { t with errSeq := true })

/-- What no command word writes (R77, R78, R79): COUNTER, ACTIVE_CH, PHASE, OUT, the configuration, the agents' remaining
steps and what the host has read. -/
def Obligations.CommandsLeaveTheSequencerAlone : Prop :=
  ∀ (w : Word) (s t : State), exec (decode w) s = .next t →
    t.counter = s.counter ∧ t.activeCh = s.activeCh ∧ t.phase = s.phase ∧ t.out = s.out ∧
    t.cfg = s.cfg ∧ t.pending = s.pending ∧ t.lastRead = s.lastRead

/-- INIT changes no commanded angle (R78 "Not written"; 10_state.md R20). -/
def Obligations.InitKeepsEveryAngle : Prop :=
  ∀ (s t : State) (ch : Chan) (pin : Pin) (addr : RegAddr), exec (.init ch pin addr) s = .next t →
    t.slots.map Slot.angle = s.slots.map Slot.angle

/-! ### The timer and the compare-match event (41_timer_event.md) -/

/-- The timer's step (R91): nothing while RUN = 0; a count modulo 2^W; and on a match the counter cleared and EVENT in
this same step. -/
def Obligations.TickFollowsItsRule : Prop :=
  ∀ s : State, s.cfg.WellFormed →
    (s.run = false → exec .tick s = .next s) ∧
    (s.run = true → (s.counter + 1) % 2 ^ s.cfg.w ≠ s.compare →
      exec .tick s = .next { s with counter := (s.counter + 1) % 2 ^ s.cfg.w }) ∧
    (s.run = true → (s.counter + 1) % 2 ^ s.cfg.w = s.compare → exec .tick s = exec .event { s with counter := 0 })

/-- A tick that matches completes: the counter is 0, the phase is flipped, and COMPARE holds the duration of the active
channel's angle (R91, R94). -/
def Obligations.MatchingTickCompletes : Prop :=
  ∀ (s : State) (sl : Slot), s.Inv → s.run = true → (s.counter + 1) % 2 ^ s.cfg.w = s.compare →
    s.slot? s.activeCh.toNat = some sl →
    ∃ t, exec .tick s = .next t ∧ t.counter = 0 ∧ t.phase ≠ s.phase ∧
      t.compare = sl.angle.toNat * s.cfg.k + s.cfg.base

/-- A High event (R94, R95; 43 R123): the pin of an initialized channel goes high, COMPARE gets the duration, the phase
becomes Low, ACTIVE_CH stays; every other output bit and field keeps its value. -/
def Obligations.HighEventEffect : Prop :=
  ∀ (s : State) (sl : Slot), s.cfg.WellFormed → s.phase = .high → s.slot? s.activeCh.toNat = some sl →
    sl.angle.toNat ≤ 180 → (s.activeCh.toNat < s.initCount.toNat → sl.port.toNat < s.out.length) →
    ∃ t, exec .event s = .next t ∧
      (∀ q b, t.outBit q b =
        if s.activeCh.toNat < s.initCount.toNat ∧ q = sl.port.toNat ∧ b = sl.pin.toNat then true else s.outBit q b) ∧
      t.out.length = s.out.length ∧
      t = { s with out := t.out, phase := .low, compare := sl.angle.toNat * s.cfg.k + s.cfg.base }

/-- A Low event (R94, R95, R96; 43 R123): the pin of an initialized channel goes low, COMPARE gets the duration, the phase
becomes High, ACTIVE_CH advances by one modulo N_CH; every other output bit and field keeps its value. -/
def Obligations.LowEventEffect : Prop :=
  ∀ (s : State) (sl : Slot), s.cfg.WellFormed → s.phase = .low → s.slot? s.activeCh.toNat = some sl →
    sl.angle.toNat ≤ 180 → (s.activeCh.toNat < s.initCount.toNat → sl.port.toNat < s.out.length) →
    ∃ t, exec .event s = .next t ∧
      (∀ q b, t.outBit q b =
        if s.activeCh.toNat < s.initCount.toNat ∧ q = sl.port.toNat ∧ b = sl.pin.toNat then false else s.outBit q b) ∧
      t.out.length = s.out.length ∧
      t.activeCh.toNat = (s.activeCh.toNat + 1) % s.cfg.nCh ∧
      t = { s with out := t.out, phase := .high, activeCh := t.activeCh,
                   compare := sl.angle.toNat * s.cfg.k + s.cfg.base }

/-- EVENT cannot fail (R99): from every state of the invariant it takes its transition and touches no error flag, and for a
slot that is not initialized it takes it with no pin write. -/
def Obligations.EventCannotFail : Prop :=
  ∀ s : State, s.Inv →
    ∃ t, exec .event s = .next t ∧ t.phase ≠ s.phase ∧ (∀ e, t.flag e = s.flag e) ∧
      (s.initCount.toNat ≤ s.activeCh.toNat → t.out = s.out)

/-- The interval law (R92). Along any steps of the agents that leave COMPARE at T, while fewer than m ticks have passed the
counter stands at c0 plus the ticks, modulo 2^W, and no event has happened; the tick that makes it m runs EVENT, and an
earlier one counts. With c0 = 0, m is T. -/
def Obligations.IntervalLaw : Prop :=
  ∀ (s t : State) (acts rest : List Action),
    s.cfg.WellFormed → s.run = true → 1 ≤ s.compare → s.compare < s.cfg.span → s.counter < s.cfg.span →
    s.pending = acts ++ rest →
    (∀ (k : Nat) (u : State), k ≤ acts.length → core.run k s = .next u → u.compare = s.compare) →
    core.run acts.length s = .next t →
    acts.count .tick < s.ticksToEvent →
    (t.counter = (s.counter + acts.count .tick) % s.cfg.span ∧ t.phase = s.phase ∧ t.activeCh = s.activeCh ∧
      t.run = true) ∧
    (∀ later, rest = .tick :: later →
      (acts.count .tick + 1 = s.ticksToEvent →
        step t = exec .event { t with counter := 0, pending := later }) ∧
      (acts.count .tick + 1 < s.ticksToEvent →
        step t = .next { t with counter := (t.counter + 1) % s.cfg.span, pending := later })) ∧
    (s.counter = 0 → s.ticksToEvent = s.compare)

/-- The counter wrap (R93). With COMPARE at or below COUNTER, along any steps of the agents that leave COMPARE, the counter
counts up to 2^W - 1, wraps to 0 and counts on with no event, and the tick that makes it 2^W - COUNTER + COMPARE ticks runs
EVENT. And a running counter comes to stand at or above COMPARE only by an accepted INIT that rewrites COMPARE to
INIT_COMPARE while COUNTER is at or above it. -/
def Obligations.CounterWrap : Prop :=
  (∀ (s t : State) (acts rest : List Action),
    s.cfg.WellFormed → s.run = true → 1 ≤ s.compare → s.compare ≤ s.counter → s.counter < s.cfg.span →
    s.pending = acts ++ rest →
    (∀ (k : Nat) (u : State), k ≤ acts.length → core.run k s = .next u → u.compare = s.compare) →
    core.run acts.length s = .next t →
    acts.count .tick < s.cfg.span - s.counter + s.compare →
    (t.counter = (if s.counter + acts.count .tick < s.cfg.span then s.counter + acts.count .tick
        else s.counter + acts.count .tick - s.cfg.span) ∧
      t.phase = s.phase ∧ t.activeCh = s.activeCh ∧ t.run = true) ∧
    (∀ later, rest = .tick :: later →
      (acts.count .tick + 1 = s.cfg.span - s.counter + s.compare →
        step t = exec .event { t with counter := 0, pending := later }) ∧
      (acts.count .tick + 1 < s.cfg.span - s.counter + s.compare →
        step t = .next { t with counter := (t.counter + 1) % s.cfg.span, pending := later }))) ∧
  (∀ s t : State, s.Inv → (s.run = true → s.counter < s.compare) → step s = .next t → t.run = true →
    t.compare ≤ t.counter →
    s.cfg.initCompare ≤ s.counter ∧ t.compare = s.cfg.initCompare ∧
      ∃ bytes rest ch pin addr, s.pending = .write s.cfg.blockBase bytes :: rest ∧
        decodeBytes bytes = .ok (.init ch pin addr) ∧ t.initCount.toNat = s.initCount.toNat + 1)

/-- Slot timing (R104), no host step falling in the slot (the empty list of steps, log 3): after a High event of a channel
with angle a its pin is high for exactly duration(a) ticks, its low segment lasts exactly duration(a) ticks, and then the
next channel has its event. -/
def Obligations.SlotTiming : Prop :=
  ∀ (s : State) (sl : Slot), s.Inv → s.run = true → s.pending = [] → s.phase = .high → s.counter = 0 →
    s.slot? s.activeCh.toNat = some sl →
    ∃ t u, exec .event s = .next t ∧
      (∀ j, j < duration s.cfg sl.angle.toNat → core.run j t = .next { t with counter := j }) ∧
      core.run (duration s.cfg sl.angle.toNat) t = .next u ∧
      (∀ j, j < duration s.cfg sl.angle.toNat → core.run j u = .next { u with counter := j }) ∧
      core.run (duration s.cfg sl.angle.toNat) u = exec .event u ∧
      u.phase = .high ∧ u.activeCh.toNat = (s.activeCh.toNat + 1) % s.cfg.nCh ∧
      (s.activeCh.toNat < s.initCount.toNat →
        t.outBit sl.port.toNat sl.pin.toNat = true ∧ u.outBit sl.port.toNat sl.pin.toNat = false)

/-- Sweep timing (R105), no host step falling in the sweep (the empty list of steps, log 3): from one High event of channel 0
there are exactly `sum over c of 2 x duration(a_c)` ticks to its next one. After them all but the output bits stands as it
stood right after the first, and after no fewer ticks is the machine in the state a High event of channel 0 leaves
(COUNTER = 0, ACTIVE_CH = 0, PHASE = Low; R91, R94). -/
def Obligations.SweepTiming : Prop :=
  ∀ s : State, s.Inv → s.run = true → s.pending = [] → s.phase = .high → s.activeCh = 0 → s.counter = 0 →
    ∃ t v, exec .event s = .next t ∧ core.run s.sweepTicks t = .next v ∧ v = { t with out := v.out } ∧
      ∀ j, 0 < j → j < s.sweepTicks →
        ∃ u, core.run j t = .next u ∧ ¬ (u.counter = 0 ∧ u.activeCh = 0 ∧ u.phase = .low)

/-- The pins in a sweep (R105), no host step falling in it (the empty list of steps, log 3), no two initialized channels on
one pin, and their output bits low before channel 0's High event. Channel c's bit is high for the `duration(a_c)` ticks from
its pulse's start and low for the others of the sweep's P; no two channels' bits are high together; in the high segment of an
initialized channel its bit is high, and in a low segment none is. -/
def Obligations.SweepPinTimes : Prop :=
  ∀ s : State, s.Inv → s.run = true → s.pending = [] → s.phase = .high → s.activeCh = 0 → s.counter = 0 →
    (∀ c sl, c < s.initCount.toNat → s.slot? c = some sl → s.outBit sl.port.toNat sl.pin.toNat = false) →
    (∀ c d slc sld, c < s.initCount.toNat → d < s.initCount.toNat → s.slot? c = some slc → s.slot? d = some sld →
      slc.port = sld.port → slc.pin = sld.pin → c = d) →
    ∃ t, exec .event s = .next t ∧
      (∀ c sl, c < s.initCount.toNat → s.slot? c = some sl →
        s.pulseStart c + 2 * duration s.cfg sl.angle.toNat ≤ s.sweepTicks) ∧
      ∀ j, j < s.sweepTicks → ∃ u, core.run j t = .next u ∧
        (∀ c sl, c < s.initCount.toNat → s.slot? c = some sl →
          (u.outBit sl.port.toNat sl.pin.toNat = true ↔
            s.pulseStart c ≤ j ∧ j < s.pulseStart c + duration s.cfg sl.angle.toNat)) ∧
        (∀ c d slc sld, c < s.initCount.toNat → d < s.initCount.toNat → s.slot? c = some slc → s.slot? d = some sld →
          u.outBit slc.port.toNat slc.pin.toNat = true → u.outBit sld.port.toNat sld.pin.toNat = true → c = d) ∧
        (u.phase = .low → ∀ sl, u.activeCh.toNat < s.initCount.toNat → s.slot? u.activeCh.toNat = some sl →
          u.outBit sl.port.toNat sl.pin.toNat = true) ∧
        (u.phase = .high → ∀ c sl, c < s.initCount.toNat → s.slot? c = some sl →
          u.outBit sl.port.toNat sl.pin.toNat = false)

/-- The event sequence (R103, R107): from a state about to have the High event of channel c, event 2k+1 is the High event
and event 2k+2 the Low event of channel (c + k) mod N_CH. -/
def Obligations.EventsVisitTheChannelsInOrder : Prop :=
  ∀ (s : State) (k : Nat), s.Inv → s.phase = .high →
    (∃ t, takeEvents (2 * k) s = .next t ∧ t.phase = .high ∧
      t.activeCh.toNat = (s.activeCh.toNat + k) % s.cfg.nCh) ∧
    (∃ t, takeEvents (2 * k + 1) s = .next t ∧ t.phase = .low ∧
      t.activeCh.toNat = (s.activeCh.toNat + k) % s.cfg.nCh)

/-- Start-up (R102), from reset, no host step after the INIT (the empty list of steps, log 3): after the first accepted INIT
no event for INIT_COMPARE - 1 ticks, and then the Low event of channel 0, which drives its pin low and moves to
(1 mod N_CH, High). -/
def Obligations.FirstEventAfterReset : Prop :=
  ∀ (c : Config) (w : Word) (pin : Pin) (addr : RegAddr) (port : Nat) (pair : PortAddr),
    c.WellFormed → decode w = .init 0 pin addr → c.ports[port]? = some pair → pair.dirAddr = addr →
    (∀ j, j < c.initCompare →
      ∃ t, core.run (1 + j) ((State.resetWith c).withPending [commandWrite c w]) = .next t ∧
        t.counter = j ∧ t.compare = c.initCompare ∧ t.run = true ∧ t.activeCh = 0 ∧ t.phase = .low) ∧
    (∃ t, core.run (1 + c.initCompare) ((State.resetWith c).withPending [commandWrite c w]) = .next t ∧
      t.counter = 0 ∧ t.compare = duration c c.angleReset ∧ t.activeCh.toNat = 1 % c.nCh ∧ t.phase = .high ∧
      t.outBit port pin.toNat = false)

/-- INIT while a segment is being timed (70_reset_and_hazards.md R156): COUNTER stays, and, with no
later host step (the empty list of steps, log 3), the next event comes when it reaches INIT_COMPARE, after a wrap if it is
already there or past it. -/
def Obligations.LateInitChangesTheSegment : Prop :=
  ∀ (s : State) (w : Word) (pin : Pin) (addr : RegAddr) (port : Nat) (pair : PortAddr),
    s.Inv → s.run = true → s.initCount.toNat < s.cfg.nCh → s.pending = [commandWrite s.cfg w] →
    decode w = .init s.initCount pin addr → s.cfg.ports[port]? = some pair → pair.dirAddr = addr →
    ∃ t, step s = .next t ∧ t.counter = s.counter ∧ t.compare = s.cfg.initCompare ∧
      (s.counter < s.cfg.initCompare →
        core.run (s.cfg.initCompare - s.counter) t = exec .event { t with counter := 0 }) ∧
      (s.cfg.initCompare ≤ s.counter →
        core.run (s.cfg.span - s.counter + s.cfg.initCompare) t = exec .event { t with counter := 0 })

/-- Events recur without limit once RUN = 1 (R109): from every running state of the invariant with no host step left (the
empty list of steps, log 3), an event comes within 2^W ticks. -/
def Obligations.EventsRecur : Prop :=
  ∀ s : State, s.Inv → s.run = true → s.pending = [] →
    ∃ m t, 1 ≤ m ∧ m ≤ s.cfg.span ∧ core.run m s = .next t ∧ exec .event { s with counter := 0 } = .next t ∧
      t.run = true ∧ t.phase ≠ s.phase

/-! ### The angle-to-duration mapper (42_duration_mapper.md) -/

/-- The mapping is strictly increasing, by K for each degree, and so monotonically non-decreasing (R114). -/
def Obligations.DurationIsStrictlyIncreasing : Prop :=
  ∀ c : Config, c.WellFormed →
    (∀ a, a + 1 ≤ 180 → duration c (a + 1) - duration c a = c.k ∧ duration c a < duration c (a + 1)) ∧ 1 ≤ c.k ∧
    (∀ a b, a ≤ b → b ≤ 180 → duration c a ≤ duration c b)

/-- The end points `duration(0) = BASE` and `duration(180) = 180 x K + BASE` (R115). -/
def Obligations.DurationEndPoints : Prop :=
  ∀ c : Config, (duration c 0 = c.dMin ∧ c.dMin = c.base) ∧ (duration c 180 = c.dMax ∧ c.dMax = 180 * c.k + c.base)

/-- Every duration is in [D_MIN, D_MAX], which lies in [1, 2^W - 1], so that what EVENT writes to COMPARE is never 0
and the interval law (`IntervalLaw`, R92) gives exactly duration(a) ticks from the event, which leaves COUNTER = 0 (R116). -/
def Obligations.DurationsFitTheTimer : Prop :=
  (∀ (c : Config) (a : Nat), c.WellFormed → a ≤ 180 →
    1 ≤ c.dMin ∧ c.dMin ≤ duration c a ∧ duration c a ≤ c.dMax ∧ c.dMax ≤ 2 ^ c.w - 1) ∧
  (∀ (s t : State) (sl : Slot), s.Inv → s.slot? s.activeCh.toNat = some sl → exec .event s = .next t →
    1 ≤ t.compare ∧ t.compare ≤ 2 ^ s.cfg.w - 1 ∧
    (s.counter = 0 → t.ticksToEvent = duration s.cfg sl.angle.toNat))

/-- The mapping is injective: a width identifies its angle, `a = (width - BASE) / K`, which is exact (R117). -/
def Obligations.WidthIdentifiesTheAngle : Prop :=
  ∀ c : Config, c.WellFormed →
    (∀ a b, a ≤ 180 → b ≤ 180 → duration c a = duration c b → a = b) ∧
    (∀ a, a ≤ 180 → a = (duration c a - c.base) / c.k ∧ (duration c a - c.base) % c.k = 0)

/-! ### The GPIO pins (43_gpio_toggle.md) -/

/-- The host's write of one GPIO bit (R126): it completes, changes exactly that bit of that register, and no other bit or
field (R124). -/
def Obligations.HostGpioWriteChangesOneBit : Prop :=
  ∀ (s : State) (reg : GpioReg) (port : Nat) (bit : Pin) (v : Bool) (rest : List Action),
    s.cfg.WellFormed → s.Shape → port < s.cfg.nPorts → s.pending = .gpio reg port bit v :: rest →
    ∃ t, step s = .next t ∧
      (∀ q b, t.dirBit q b = if reg = .dir ∧ q = port ∧ b = bit.toNat then v else s.dirBit q b) ∧
      (∀ q b, t.outBit q b = if reg = .out ∧ q = port ∧ b = bit.toNat then v else s.outBit q b) ∧
      t.dir.length = s.dir.length ∧ t.out.length = s.out.length ∧
      t = { s with pending := rest, dir := t.dir, out := t.out }

/-- The level of a pin (R127): OUT where DIR is 1, and Z where DIR is 0. -/
def Obligations.PinLevelFollowsDirAndOut : Prop :=
  ∀ (s : State) (p b : Nat),
    (s.dirBit p b = true → s.outBit p b = true → s.pinLevel p b = .high) ∧
    (s.dirBit p b = true → s.outBit p b = false → s.pinLevel p b = .low) ∧
    (s.dirBit p b = false → s.pinLevel p b = .z)

/-- The SPS never clears a DIR bit (R122). -/
def Obligations.DirBitsAreNeverCleared : Prop :=
  ∀ (i : Instr) (s t : State) (p b : Nat), exec i s = .next t → s.dirBit p b = true → t.dirBit p b = true

/-- The SPS writes no DIR or OUT bit that no initialized channel names (R125): an OUT bit changes only in TICK or EVENT, and
it is the active channel's; a DIR bit changes only in INIT, and it is the bit the channel just initialized names. -/
def Obligations.OnlyNamedGpioBitsChange : Prop :=
  ∀ (i : Instr) (s t : State) (p b : Nat), s.Inv → exec i s = .next t →
    (t.outBit p b ≠ s.outBit p b →
      (i = .tick ∨ i = .event) ∧ s.activeCh.toNat < s.initCount.toNat ∧
        ∃ sl, s.slot? s.activeCh.toNat = some sl ∧ sl.port.toNat = p ∧ sl.pin.toNat = b) ∧
    (t.dirBit p b ≠ s.dirBit p b →
      ∃ ch pin addr sl, i = .init ch pin addr ∧ ch.toNat < t.initCount.toNat ∧
        t.slot? ch.toNat = some sl ∧ sl.port.toNat = p ∧ sl.pin.toNat = b)

/-- The SPS never reads the GPIO registers (R125): two runs of the same steps from states that differ only in DIR and OUT
go on differing only there. -/
def Obligations.PinsNeverInfluenceTheSps : Prop :=
  ∀ (n : Nat) (s t s' : State), s.AgreeOffPins t → core.run n s = .next s' →
    ∃ t', core.run n t = .next t' ∧ s'.AgreeOffPins t'

/-! ### Reset, the invariant and the whole machine -/

/-- The reset values of 10_state.md R40, for every configuration, STATUS reading 0x00000000. -/
def Obligations.ResetValues : Prop :=
  ∀ c : Config, c.WellFormed →
    (∀ ch, ch < c.nCh → ∃ sl, (State.resetWith c).slot? ch = some sl ∧ sl.pin = 0 ∧ sl.port = 0 ∧
      sl.angle.toNat = c.angleReset) ∧
    (State.resetWith c).slots.length = c.nCh ∧
    (State.resetWith c).initCount = 0 ∧ (State.resetWith c).activeCh = 0 ∧ (State.resetWith c).phase = .low ∧
    (State.resetWith c).counter = 0 ∧ (State.resetWith c).compare = 0 ∧ (State.resetWith c).run = false ∧
    (∀ e, (State.resetWith c).flag e = false) ∧
    (State.resetWith c).dir.length = c.nPorts ∧ (∀ r ∈ (State.resetWith c).dir, r = 0x00#8) ∧
    (State.resetWith c).out.length = c.nPorts ∧ (∀ r ∈ (State.resetWith c).out, r = 0x00#8) ∧
    (State.resetWith c).status = 0x00000000

/-- The invariant of 10_state.md R39 holds after reset, under every well-formed configuration. -/
def Obligations.ResetSatisfiesTheInvariant : Prop :=
  ∀ c : Config, c.WellFormed → (State.resetWith c).Inv

/-- Every step keeps the invariant of 10_state.md R39. -/
def Obligations.StepKeepsTheInvariant : Prop :=
  ∀ s t : State, s.Inv → step s = .next t → t.Inv

/-- From every state of the invariant, every step the spec gives a meaning completes: the machine neither faults nor
refuses (60_exceptions.md R133). -/
def Obligations.DefinedStepsComplete : Prop :=
  ∀ s : State, s.Inv → (∀ a, s.pending.head? = some a → a.Defined s.cfg) → ∃ t, step s = .next t

/-- Reset sets every field of the SPS to its reset value at once (70_reset_and_hazards.md R147). That the configuration, the
agents' remaining steps and what the host has read stay is the model's choice (log 16). -/
def Obligations.ResetInputRestoresTheResetState : Prop :=
  ∀ (s : State) (rest : List Action), s.cfg.WellFormed → s.pending = .reset :: rest →
    step s = .next { State.resetWith s.cfg with pending := rest, lastRead := s.lastRead }

/-- After reset, every pin is undriven (70_reset_and_hazards.md R150). -/
def Obligations.PinsUndrivenAfterReset : Prop :=
  ∀ (c : Config) (p b : Nat), (State.resetWith c).pinLevel p b = .z

/-- Without an accepted INIT the scheduler stays as reset left it (41_timer_event.md R109, 70_reset_and_hazards.md R149):
from every state of the invariant with RUN = 0, whatever steps the agents have left, a step that is no accepted INIT and no
reset leaves RUN at 0 and the slots, INIT_COUNT, the sequencer and the timer as they are, and, unless it is a host GPIO
write, the GPIO registers. -/
def Obligations.OnlyAnAcceptedInitStartsTheScheduler : Prop :=
  ∀ s t : State, s.Inv → s.run = false → s.NotResetNext → ¬ s.AcceptedInitNext → step s = .next t →
    t.run = false ∧ t.slots = s.slots ∧ t.initCount = s.initCount ∧ t.activeCh = s.activeCh ∧ t.phase = s.phase ∧
    t.counter = s.counter ∧ t.compare = s.compare ∧
    ((∀ reg port bit v rest, s.pending ≠ .gpio reg port bit v :: rest) → t.dir = s.dir ∧ t.out = s.out)

/-- But for reset, RUN is never cleared, and INIT_COUNT stays or rises by exactly 1, the latter only by an INIT of channel
INIT_COUNT (10_state.md R24, R31). -/
def Obligations.RunAndCountNeverFall : Prop :=
  ∀ s t : State, s.Inv → s.NotResetNext → step s = .next t →
    (s.run = true → t.run = true) ∧
    (t.initCount = s.initCount ∨
      (t.initCount.toNat = s.initCount.toNat + 1 ∧
        ∃ bytes rest pin addr, s.pending = .write s.cfg.blockBase bytes :: rest ∧
          decodeBytes bytes = .ok (.init s.initCount pin addr)))

/-- But for reset, an initialized slot keeps its pin and port, and a slot's angle changes only by a SETANG of that channel
(10_state.md R20, R22). -/
def Obligations.BoundSlotsKeepTheirPin : Prop :=
  ∀ (s t : State) (c : Nat), s.NotResetNext → step s = .next t →
    (c < s.initCount.toNat → (t.slot? c).map Slot.pin = (s.slot? c).map Slot.pin ∧
      (t.slot? c).map Slot.port = (s.slot? c).map Slot.port) ∧
    ((t.slot? c).map Slot.angle ≠ (s.slot? c).map Slot.angle →
      ∃ bytes rest ch angle, s.pending = .write s.cfg.blockBase bytes :: rest ∧
        decodeBytes bytes = .ok (.setang ch angle) ∧ ch.toNat = c)

/-- A step runs the decoded instruction (40_host_commands.md R76): it takes the next of the agents' steps off the list, and
a word written to CMD is decoded from its byte lanes and executed; a status read is RDSTAT, a tick is TICK, and with no step
of another agent left the timer ticks (the last is the model's choice, log 3). -/
def Obligations.StepRunsTheNextAction : Prop :=
  (∀ (s : State) (b0 b1 b2 b3 : Byte) (rest : List Action), s.pending = .write s.cfg.blockBase [b0, b1, b2, b3] :: rest →
    step s = exec (decode (b3 ++ b2 ++ b1 ++ b0)) { s with pending := rest }) ∧
  (∀ (s : State) (w : Word) (rest : List Action), s.pending = commandWrite s.cfg w :: rest →
    step s = exec (decode w) { s with pending := rest }) ∧
  (∀ (s : State) (w : Nat), w < 2 ^ 32 → step (s.withFetchWord 32 w) = exec (decode (BitVec.ofNat 32 w)) s) ∧
  (∀ (s : State) (rest : List Action), s.pending = .read (s.cfg.blockBase + 4) 4 :: rest →
    step s = exec .rdstat { s with pending := rest }) ∧
  (∀ (s : State) (rest : List Action), s.pending = .tick :: rest → step s = exec .tick { s with pending := rest }) ∧
  (∀ s : State, s.pending = [] → step s = exec .tick s)

/-- A configuration that is not well formed has no meaning: every instruction is refused under it (00_scope.md R7). -/
def Obligations.IllFormedConfigurationIsRefused : Prop :=
  ∀ (i : Instr) (s : State), ¬ s.cfg.WellFormed → exec i s = .refused .illFormedConfiguration

/-- Nothing writes the configuration (10_state.md R13). -/
def Obligations.NothingWritesTheConfiguration : Prop :=
  ∀ s t : State, step s = .next t → t.cfg = s.cfg
end

