-- ==== Sys2Proof/Laws/Bits.lean ====
section
/-!
SUPPORT. The bit-level laws: the fields of an encoded word, the byte lanes, and the single-bit write of a register.
-/

namespace Sys2Proof

/-- Reading a word's byte lanes back gives the word (20_memory.md R41). -/
theorem wordOfBytes_lanes (w : Word) :
    wordOfBytes (w.extractLsb' 0 8) (w.extractLsb' 8 8) (w.extractLsb' 16 8) (w.extractLsb' 24 8) = w := by
  unfold wordOfBytes
  ext i hi
  simp only [BitVec.getElem_append, BitVec.getElem_extractLsb']
  split <;> [skip; split <;> [skip; split]] <;> simp only [← BitVec.getLsbD_eq_getElem] <;> congr 1 <;> omega

/-- A concatenation as a number: the left part stands above the right part (00_scope.md R8). -/
theorem append_toNat {n m : Nat} (x : BitVec n) (y : BitVec m) : (x ++ y).toNat = x.toNat * 2 ^ m + y.toNat := by
  rw [BitVec.toNat_append, Nat.shiftLeft_eq, Nat.mul_comm, Nat.two_pow_add_eq_or_of_lt y.isLt]

/-! The fields of a word as numbers (30_encoding.md R60 to R66). -/

theorem opField_toNat (w : Word) : (opField w).toNat = w.toNat / 2 ^ 28 := by
  have := w.isLt
  simp only [opField, BitVec.extractLsb'_toNat, Nat.shiftRight_eq_div_pow]; omega

theorem restField_toNat (w : Word) : (restField w).toNat = w.toNat % 2 ^ 28 := by
  simp [restField, BitVec.extractLsb'_toNat]

theorem chField_toNat (w : Word) : (chField w).toNat = w.toNat / 2 ^ 20 % 2 ^ 8 := by
  simp [chField, BitVec.extractLsb'_toNat, Nat.shiftRight_eq_div_pow]

theorem pinField_toNat (w : Word) : (pinField w).toNat = w.toNat / 2 ^ 16 % 2 ^ 3 := by
  simp [pinField, BitVec.extractLsb'_toNat, Nat.shiftRight_eq_div_pow]

theorem rsvFieldA_toNat (w : Word) : (rsvFieldA w).toNat = w.toNat / 2 ^ 16 % 2 ^ 4 := by
  simp [rsvFieldA, BitVec.extractLsb'_toNat, Nat.shiftRight_eq_div_pow]

theorem lowField_toNat (w : Word) : (lowField w).toNat = w.toNat % 2 ^ 16 := by
  simp [lowField, BitVec.extractLsb'_toNat]

theorem rsvBitI_eq (w : Word) : rsvBitI w = decide (w.toNat / 2 ^ 19 % 2 = 1) := by
  simp [rsvBitI, BitVec.getLsbD, Nat.testBit_eq_decide_div_mod_eq]

/-! The encoded words as numbers (30_encoding.md R61, R72). -/

theorem encodeOpcode_toNat (op : BitVec 4) (rest : BitVec 28) :
    (encodeOpcode op rest).toNat = op.toNat * 2 ^ 28 + rest.toNat := by
  simp only [encodeOpcode, append_toNat]

theorem encodeFormatI_toNat (rsv : BitVec 1) (ch : Chan) (pin : Pin) (addr : RegAddr) :
    (encodeFormatI rsv ch pin addr).toNat =
      0x10000000 + ch.toNat * 2 ^ 20 + rsv.toNat * 2 ^ 19 + pin.toNat * 2 ^ 16 + addr.toNat := by
  have h : (0b0001#4).toNat = 1 := rfl
  simp only [encodeFormatI, append_toNat, h]; omega

theorem encodeFormatA_toNat (ch : Chan) (rsv : BitVec 4) (angle : BitVec 16) :
    (encodeFormatA ch rsv angle).toNat =
      0x20000000 + ch.toNat * 2 ^ 20 + rsv.toNat * 2 ^ 16 + angle.toNat := by
  have h : (0b0010#4).toNat = 2 := rfl
  simp only [encodeFormatA, append_toNat, h]; omega

namespace Machine

/-- The mask of a bit position has that bit and no other. -/
theorem bitMask_getLsbD (b : Pin) (i : Nat) : (1#8 <<< b.toNat).getLsbD i = decide (i = b.toNat) := by
  have hb := b.isLt
  rw [BitVec.getLsbD_shiftLeft]
  by_cases hi : i = b.toNat
  · subst hi; simp; omega
  · by_cases hlt : i < b.toNat
    · simp [hlt, hi]
    · have : i - b.toNat ≠ 0 := by omega
      simp [BitVec.getLsbD_one, this, hi]

/-- The single-bit write reads back as the bit written, and as before at every other bit (43_gpio_toggle.md R124). -/
theorem setBit_getLsbD (r : Byte) (b : Pin) (v : Bool) (i : Nat) :
    (setBit r b v).getLsbD i = if i = b.toNat then v else r.getLsbD i := by
  have hb := b.isLt
  cases v <;> simp only [setBit, Bool.false_eq_true, ↓reduceIte]
  · rw [BitVec.getLsbD_and, BitVec.getLsbD_not, bitMask_getLsbD]
    by_cases hi : i = b.toNat
    · simp [hi]
    · by_cases h8 : i < 8
      · simp only [h8, hi, decide_true, decide_false, Bool.not_false, Bool.and_true, ↓reduceIte]
      · simp [hi, BitVec.getLsbD_of_ge r i (by omega)]
  · rw [BitVec.getLsbD_or, bitMask_getLsbD]
    by_cases hi : i = b.toNat <;> simp [hi]

end Machine

end Sys2Proof
end

