-- ==== Sys2Proof/Laws/State.lean ====
section
/-!
SUPPORT. One lemma per field per update of the state, so that no later proof unfolds a record update.
-/

namespace Sys2Proof.Machine

section setFlag
variable (e : ErrFlag) (s : State)

@[simp] theorem State.setFlag_cfg : (s.setFlag e).cfg = s.cfg := by cases e <;> rfl
@[simp] theorem State.setFlag_pending : (s.setFlag e).pending = s.pending := by cases e <;> rfl
@[simp] theorem State.setFlag_lastRead : (s.setFlag e).lastRead = s.lastRead := by cases e <;> rfl
@[simp] theorem State.setFlag_slots : (s.setFlag e).slots = s.slots := by cases e <;> rfl
@[simp] theorem State.setFlag_initCount : (s.setFlag e).initCount = s.initCount := by cases e <;> rfl
@[simp] theorem State.setFlag_activeCh : (s.setFlag e).activeCh = s.activeCh := by cases e <;> rfl
@[simp] theorem State.setFlag_phase : (s.setFlag e).phase = s.phase := by cases e <;> rfl
@[simp] theorem State.setFlag_counter : (s.setFlag e).counter = s.counter := by cases e <;> rfl
@[simp] theorem State.setFlag_compare : (s.setFlag e).compare = s.compare := by cases e <;> rfl
@[simp] theorem State.setFlag_run : (s.setFlag e).run = s.run := by cases e <;> rfl
@[simp] theorem State.setFlag_errOp : (s.setFlag e).errOp = (s.errOp || decide (e = .op)) := by cases e <;> simp [State.setFlag]
@[simp] theorem State.setFlag_errCh : (s.setFlag e).errCh = (s.errCh || decide (e = .ch)) := by cases e <;> simp [State.setFlag]
@[simp] theorem State.setFlag_errSeq : (s.setFlag e).errSeq = (s.errSeq || decide (e = .seq)) := by cases e <;> simp [State.setFlag]
@[simp] theorem State.setFlag_errAddr : (s.setFlag e).errAddr = (s.errAddr || decide (e = .addr)) := by cases e <;> simp [State.setFlag]
@[simp] theorem State.setFlag_errUninit : (s.setFlag e).errUninit = (s.errUninit || decide (e = .uninit)) := by cases e <;> simp [State.setFlag]
@[simp] theorem State.setFlag_dir : (s.setFlag e).dir = s.dir := by cases e <;> rfl
@[simp] theorem State.setFlag_out : (s.setFlag e).out = s.out := by cases e <;> rfl

end setFlag

section countInit
variable (s : State)

@[simp] theorem State.countInit_cfg : (s.countInit).cfg = s.cfg := rfl
@[simp] theorem State.countInit_pending : (s.countInit).pending = s.pending := rfl
@[simp] theorem State.countInit_lastRead : (s.countInit).lastRead = s.lastRead := rfl
@[simp] theorem State.countInit_slots : (s.countInit).slots = s.slots := rfl
@[simp] theorem State.countInit_initCount : (s.countInit).initCount = s.initCount + 1 := rfl
@[simp] theorem State.countInit_activeCh : (s.countInit).activeCh = s.activeCh := rfl
@[simp] theorem State.countInit_phase : (s.countInit).phase = s.phase := rfl
@[simp] theorem State.countInit_counter : (s.countInit).counter = s.counter := rfl
@[simp] theorem State.countInit_compare : (s.countInit).compare = s.compare := rfl
@[simp] theorem State.countInit_run : (s.countInit).run = s.run := rfl
@[simp] theorem State.countInit_errOp : (s.countInit).errOp = s.errOp := rfl
@[simp] theorem State.countInit_errCh : (s.countInit).errCh = s.errCh := rfl
@[simp] theorem State.countInit_errSeq : (s.countInit).errSeq = s.errSeq := rfl
@[simp] theorem State.countInit_errAddr : (s.countInit).errAddr = s.errAddr := rfl
@[simp] theorem State.countInit_errUninit : (s.countInit).errUninit = s.errUninit := rfl
@[simp] theorem State.countInit_dir : (s.countInit).dir = s.dir := rfl
@[simp] theorem State.countInit_out : (s.countInit).out = s.out := rfl

end countInit

section setSequencer
variable (ch : Chan) (ph : Phase) (s : State)

@[simp] theorem State.setSequencer_cfg : (s.setSequencer ch ph).cfg = s.cfg := rfl
@[simp] theorem State.setSequencer_pending : (s.setSequencer ch ph).pending = s.pending := rfl
@[simp] theorem State.setSequencer_lastRead : (s.setSequencer ch ph).lastRead = s.lastRead := rfl
@[simp] theorem State.setSequencer_slots : (s.setSequencer ch ph).slots = s.slots := rfl
@[simp] theorem State.setSequencer_initCount : (s.setSequencer ch ph).initCount = s.initCount := rfl
@[simp] theorem State.setSequencer_activeCh : (s.setSequencer ch ph).activeCh = ch := rfl
@[simp] theorem State.setSequencer_phase : (s.setSequencer ch ph).phase = ph := rfl
@[simp] theorem State.setSequencer_counter : (s.setSequencer ch ph).counter = s.counter := rfl
@[simp] theorem State.setSequencer_compare : (s.setSequencer ch ph).compare = s.compare := rfl
@[simp] theorem State.setSequencer_run : (s.setSequencer ch ph).run = s.run := rfl
@[simp] theorem State.setSequencer_errOp : (s.setSequencer ch ph).errOp = s.errOp := rfl
@[simp] theorem State.setSequencer_errCh : (s.setSequencer ch ph).errCh = s.errCh := rfl
@[simp] theorem State.setSequencer_errSeq : (s.setSequencer ch ph).errSeq = s.errSeq := rfl
@[simp] theorem State.setSequencer_errAddr : (s.setSequencer ch ph).errAddr = s.errAddr := rfl
@[simp] theorem State.setSequencer_errUninit : (s.setSequencer ch ph).errUninit = s.errUninit := rfl
@[simp] theorem State.setSequencer_dir : (s.setSequencer ch ph).dir = s.dir := rfl
@[simp] theorem State.setSequencer_out : (s.setSequencer ch ph).out = s.out := rfl

end setSequencer

section setCounter
variable (n : Nat) (s : State)

@[simp] theorem State.setCounter_cfg : (s.setCounter n).cfg = s.cfg := rfl
@[simp] theorem State.setCounter_pending : (s.setCounter n).pending = s.pending := rfl
@[simp] theorem State.setCounter_lastRead : (s.setCounter n).lastRead = s.lastRead := rfl
@[simp] theorem State.setCounter_slots : (s.setCounter n).slots = s.slots := rfl
@[simp] theorem State.setCounter_initCount : (s.setCounter n).initCount = s.initCount := rfl
@[simp] theorem State.setCounter_activeCh : (s.setCounter n).activeCh = s.activeCh := rfl
@[simp] theorem State.setCounter_phase : (s.setCounter n).phase = s.phase := rfl
@[simp] theorem State.setCounter_counter : (s.setCounter n).counter = n := rfl
@[simp] theorem State.setCounter_compare : (s.setCounter n).compare = s.compare := rfl
@[simp] theorem State.setCounter_run : (s.setCounter n).run = s.run := rfl
@[simp] theorem State.setCounter_errOp : (s.setCounter n).errOp = s.errOp := rfl
@[simp] theorem State.setCounter_errCh : (s.setCounter n).errCh = s.errCh := rfl
@[simp] theorem State.setCounter_errSeq : (s.setCounter n).errSeq = s.errSeq := rfl
@[simp] theorem State.setCounter_errAddr : (s.setCounter n).errAddr = s.errAddr := rfl
@[simp] theorem State.setCounter_errUninit : (s.setCounter n).errUninit = s.errUninit := rfl
@[simp] theorem State.setCounter_dir : (s.setCounter n).dir = s.dir := rfl
@[simp] theorem State.setCounter_out : (s.setCounter n).out = s.out := rfl

end setCounter

section giveHost
variable (w : Word) (s : State)

@[simp] theorem State.giveHost_cfg : (s.giveHost w).cfg = s.cfg := rfl
@[simp] theorem State.giveHost_pending : (s.giveHost w).pending = s.pending := rfl
@[simp] theorem State.giveHost_lastRead : (s.giveHost w).lastRead = some w := rfl
@[simp] theorem State.giveHost_slots : (s.giveHost w).slots = s.slots := rfl
@[simp] theorem State.giveHost_initCount : (s.giveHost w).initCount = s.initCount := rfl
@[simp] theorem State.giveHost_activeCh : (s.giveHost w).activeCh = s.activeCh := rfl
@[simp] theorem State.giveHost_phase : (s.giveHost w).phase = s.phase := rfl
@[simp] theorem State.giveHost_counter : (s.giveHost w).counter = s.counter := rfl
@[simp] theorem State.giveHost_compare : (s.giveHost w).compare = s.compare := rfl
@[simp] theorem State.giveHost_run : (s.giveHost w).run = s.run := rfl
@[simp] theorem State.giveHost_errOp : (s.giveHost w).errOp = s.errOp := rfl
@[simp] theorem State.giveHost_errCh : (s.giveHost w).errCh = s.errCh := rfl
@[simp] theorem State.giveHost_errSeq : (s.giveHost w).errSeq = s.errSeq := rfl
@[simp] theorem State.giveHost_errAddr : (s.giveHost w).errAddr = s.errAddr := rfl
@[simp] theorem State.giveHost_errUninit : (s.giveHost w).errUninit = s.errUninit := rfl
@[simp] theorem State.giveHost_dir : (s.giveHost w).dir = s.dir := rfl
@[simp] theorem State.giveHost_out : (s.giveHost w).out = s.out := rfl

end giveHost

section withPending
variable (as : List Action) (s : State)

@[simp] theorem State.withPending_cfg : (s.withPending as).cfg = s.cfg := rfl
@[simp] theorem State.withPending_pending : (s.withPending as).pending = as := rfl
@[simp] theorem State.withPending_lastRead : (s.withPending as).lastRead = s.lastRead := rfl
@[simp] theorem State.withPending_slots : (s.withPending as).slots = s.slots := rfl
@[simp] theorem State.withPending_initCount : (s.withPending as).initCount = s.initCount := rfl
@[simp] theorem State.withPending_activeCh : (s.withPending as).activeCh = s.activeCh := rfl
@[simp] theorem State.withPending_phase : (s.withPending as).phase = s.phase := rfl
@[simp] theorem State.withPending_counter : (s.withPending as).counter = s.counter := rfl
@[simp] theorem State.withPending_compare : (s.withPending as).compare = s.compare := rfl
@[simp] theorem State.withPending_run : (s.withPending as).run = s.run := rfl
@[simp] theorem State.withPending_errOp : (s.withPending as).errOp = s.errOp := rfl
@[simp] theorem State.withPending_errCh : (s.withPending as).errCh = s.errCh := rfl
@[simp] theorem State.withPending_errSeq : (s.withPending as).errSeq = s.errSeq := rfl
@[simp] theorem State.withPending_errAddr : (s.withPending as).errAddr = s.errAddr := rfl
@[simp] theorem State.withPending_errUninit : (s.withPending as).errUninit = s.errUninit := rfl
@[simp] theorem State.withPending_dir : (s.withPending as).dir = s.dir := rfl
@[simp] theorem State.withPending_out : (s.withPending as).out = s.out := rfl

end withPending

section afterReset
variable (s : State)

@[simp] theorem State.afterReset_cfg : (s.afterReset).cfg = s.cfg := rfl
@[simp] theorem State.afterReset_pending : (s.afterReset).pending = s.pending := rfl
@[simp] theorem State.afterReset_lastRead : (s.afterReset).lastRead = s.lastRead := rfl
@[simp] theorem State.afterReset_slots : (s.afterReset).slots = List.replicate s.cfg.nCh ⟨0, 0, BitVec.ofNat 8 s.cfg.angleReset⟩ := rfl
@[simp] theorem State.afterReset_initCount : (s.afterReset).initCount = 0 := rfl
@[simp] theorem State.afterReset_activeCh : (s.afterReset).activeCh = 0 := rfl
@[simp] theorem State.afterReset_phase : (s.afterReset).phase = .low := rfl
@[simp] theorem State.afterReset_counter : (s.afterReset).counter = 0 := rfl
@[simp] theorem State.afterReset_compare : (s.afterReset).compare = 0 := rfl
@[simp] theorem State.afterReset_run : (s.afterReset).run = false := rfl
@[simp] theorem State.afterReset_errOp : (s.afterReset).errOp = false := rfl
@[simp] theorem State.afterReset_errCh : (s.afterReset).errCh = false := rfl
@[simp] theorem State.afterReset_errSeq : (s.afterReset).errSeq = false := rfl
@[simp] theorem State.afterReset_errAddr : (s.afterReset).errAddr = false := rfl
@[simp] theorem State.afterReset_errUninit : (s.afterReset).errUninit = false := rfl
@[simp] theorem State.afterReset_dir : (s.afterReset).dir = List.replicate s.cfg.nPorts 0 := rfl
@[simp] theorem State.afterReset_out : (s.afterReset).out = List.replicate s.cfg.nPorts 0 := rfl

end afterReset

section resetWith
variable (c : Config)

@[simp] theorem State.resetWith_cfg : (State.resetWith c).cfg = c := rfl
@[simp] theorem State.resetWith_pending : (State.resetWith c).pending = [] := rfl
@[simp] theorem State.resetWith_lastRead : (State.resetWith c).lastRead = none := rfl
@[simp] theorem State.resetWith_slots : (State.resetWith c).slots = List.replicate c.nCh ⟨0, 0, BitVec.ofNat 8 c.angleReset⟩ := rfl
@[simp] theorem State.resetWith_initCount : (State.resetWith c).initCount = 0 := rfl
@[simp] theorem State.resetWith_activeCh : (State.resetWith c).activeCh = 0 := rfl
@[simp] theorem State.resetWith_phase : (State.resetWith c).phase = .low := rfl
@[simp] theorem State.resetWith_counter : (State.resetWith c).counter = 0 := rfl
@[simp] theorem State.resetWith_compare : (State.resetWith c).compare = 0 := rfl
@[simp] theorem State.resetWith_run : (State.resetWith c).run = false := rfl
@[simp] theorem State.resetWith_errOp : (State.resetWith c).errOp = false := rfl
@[simp] theorem State.resetWith_errCh : (State.resetWith c).errCh = false := rfl
@[simp] theorem State.resetWith_errSeq : (State.resetWith c).errSeq = false := rfl
@[simp] theorem State.resetWith_errAddr : (State.resetWith c).errAddr = false := rfl
@[simp] theorem State.resetWith_errUninit : (State.resetWith c).errUninit = false := rfl
@[simp] theorem State.resetWith_dir : (State.resetWith c).dir = List.replicate c.nPorts 0 := rfl
@[simp] theorem State.resetWith_out : (State.resetWith c).out = List.replicate c.nPorts 0 := rfl

end resetWith

/-- Each flag after a flag is set: that one is set, the others are as they were (60_exceptions.md R130). -/
@[simp] theorem State.setFlag_flag (e d : ErrFlag) (s : State) :
    (s.setFlag e).flag d = (s.flag d || decide (e = d)) := by
  cases e <;> cases d <;> simp [State.setFlag, State.flag]

/-- Setting a flag that is set changes nothing (10_state.md R34). -/
theorem State.setFlag_of_flag (e : ErrFlag) (s : State) (h : s.flag e = true) : s.setFlag e = s := by
  cases s; cases e <;> simp_all [State.setFlag, State.flag]

end Sys2Proof.Machine
end

