-- ==== Sys2Proof/Laws/Ops.lean ====
section
/-!
SUPPORT. For each shared operation, one lemma that says once everything it can do when it answers a state. Later proofs
cite these and unfold none of the operations.
-/

namespace Sys2Proof.Machine

/-- A meaning answers a next state exactly under a well-formed configuration, when its effect gives that state. -/
@[simp] theorem underConfig_next (s t : State) (e : Except Fault State) :
    underConfig s e = .next t ↔ s.cfg.WellFormed ∧ e = .ok t := by
  unfold underConfig
  split
  · rename_i h
    cases e <;> simp only [reduceCtorEq, Host.Outcome.next.injEq, Except.ok.injEq, and_false, iff_and_self]
    exact fun _ => h
  · rename_i h
    exact ⟨nofun, fun h' => absurd h'.1 h⟩

/-- Under an ill-formed configuration every meaning is refused (00_scope.md R7). -/
theorem underConfig_refused (s : State) (e : Except Fault State) (h : ¬ s.cfg.WellFormed) :
    underConfig s e = .refused .illFormedConfiguration := by
  simp [underConfig, h]

@[simp] theorem reject_ok (e : ErrFlag) (s t : State) : reject e s = .ok t ↔ t = s.setFlag e := by
  simp [reject, eq_comm]

theorem modifySlot_ok (ch : Nat) (f : Slot → Slot) (s t : State) :
    s.modifySlot ch f = .ok t ↔ ch < s.slots.length ∧ t = { s with slots := s.slots.modify ch f } := by
  unfold State.modifySlot
  split <;> simp [*, eq_comm]

theorem setAngle_ok (ch : Nat) (a : Byte) (s t : State) :
    s.setAngle ch a = .ok t ↔
      ch < s.slots.length ∧ t = { s with slots := s.slots.modify ch fun sl => { sl with angle := a } } :=
  modifySlot_ok ..

theorem bindSlot_ok (ch : Nat) (pin : Pin) (port : Nat) (s t : State) :
    s.bindSlot ch pin port = .ok t ↔
      ch < s.slots.length ∧
        t = { s with slots := s.slots.modify ch fun sl => { sl with pin := pin, port := BitVec.ofNat 3 port } } :=
  modifySlot_ok ..

theorem writeGpioBit_dir_ok (port : Nat) (b : Pin) (v : Bool) (s t : State) :
    s.writeGpioBit .dir port b v = .ok t ↔
      port < s.dir.length ∧ t = { s with dir := s.dir.modify port fun r => setBit r b v } := by
  simp only [State.writeGpioBit]
  split <;> simp [*, eq_comm]

theorem writeGpioBit_out_ok (port : Nat) (b : Pin) (v : Bool) (s t : State) :
    s.writeGpioBit .out port b v = .ok t ↔
      port < s.out.length ∧ t = { s with out := s.out.modify port fun r => setBit r b v } := by
  simp only [State.writeGpioBit]
  split <;> simp [*, eq_comm]

theorem setCompare_ok (v : Nat) (s t : State) :
    s.setCompare v = .ok t ↔ v < s.cfg.span ∧ t = { s with compare := v } := by
  unfold State.setCompare
  split <;> simp [*, eq_comm]

theorem startTimer_ok (s t : State) :
    s.startTimer = .ok t ↔
      s.cfg.initCompare < s.cfg.span ∧ t = { s with compare := s.cfg.initCompare, run := true } := by
  unfold State.startTimer State.setCompare
  split <;> simp [*, Except.map, eq_comm]

/-- The slot table read back after one slot is replaced (10_state.md R15). -/
theorem slots_modify_getElem? (slots : List Slot) (ch c : Nat) (f : Slot → Slot) :
    (slots.modify ch f)[c]? = if c = ch then slots[c]?.map f else slots[c]? := by
  rw [List.getElem?_modify]
  by_cases h : c = ch
  · subst h; simp
  · simp [h, Ne.symm h]

/-- The bits of a table of registers after one register's bit is written (43_gpio_toggle.md R124). -/
theorem getD_modify_setBit (regs : List Byte) (port : Nat) (b : Pin) (v : Bool) (h : port < regs.length) (q i : Nat) :
    ((regs.modify port fun r => setBit r b v).getD q 0).getLsbD i =
      if q = port ∧ i = b.toNat then v else (regs.getD q 0).getLsbD i := by
  simp only [List.getD_eq_getElem?_getD, List.getElem?_modify]
  by_cases hq : q = port
  · subst hq
    simp [h, setBit_getLsbD]
  · simp [hq, Ne.symm hq]

/-- What an accepted INIT changes, all of it (40_host_commands.md R78). -/
theorem acceptInit_ok (ch : Chan) (pin : Pin) (port : Nat) (s t : State) :
    acceptInit ch pin port s = .ok t ↔
      (ch.toNat < s.slots.length ∧ port < s.dir.length ∧ s.cfg.initCompare < s.cfg.span) ∧
      t = { s with
        slots := s.slots.modify ch.toNat fun sl => { sl with pin := pin, port := BitVec.ofNat 3 port },
        dir := s.dir.modify port fun r => setBit r pin true,
        initCount := s.initCount + 1,
        compare := s.cfg.initCompare,
        run := true } := by
  constructor
  · intro h
    unfold acceptInit at h
    rcases h1 : s.bindSlot ch.toNat pin port with _ | u
    · simp [h1, bind, Except.bind] at h
    rcases h2 : u.writeGpioBit .dir port pin true with _ | v
    · simp [h1, h2, bind, Except.bind] at h
    simp only [h1, h2, bind, Except.bind, startTimer_ok] at h
    obtain ⟨hc, rfl⟩ := (bindSlot_ok ..).1 h1
    obtain ⟨hd, rfl⟩ := (writeGpioBit_dir_ok ..).1 h2
    obtain ⟨hi, rfl⟩ := h
    exact ⟨⟨hc, hd, hi⟩, rfl⟩
  · rintro ⟨⟨hc, hd, hi⟩, rfl⟩
    unfold acceptInit
    rw [(bindSlot_ok ..).2 ⟨hc, rfl⟩]
    simp only [bind, Except.bind]
    simp only [State.writeGpioBit, hd, ↓reduceIte]
    exact (startTimer_ok ..).2 ⟨hi, rfl⟩

/-- A found port exists and has the address (43_gpio_toggle.md R120). -/
theorem lookupFrom_some {addr : RegAddr} {ports : List PortAddr} {n p : Nat}
    (h : lookupFrom addr n ports = some p) : n ≤ p ∧ ∃ pair, ports[p - n]? = some pair ∧ pair.dirAddr = addr := by
  induction ports generalizing n with
  | nil => simp [lookupFrom] at h
  | cons pair rest ih =>
    unfold lookupFrom at h
    split at h
    · cases h; exact ⟨le_rfl, pair, by simp, ‹_›⟩
    · obtain ⟨hle, q, hq, hqa⟩ := ih h
      refine ⟨by omega, q, ?_, hqa⟩
      rw [show p - n = (p - (n + 1)) + 1 by omega]
      simpa using hq

theorem lookupPort_lt {c : Config} {addr : RegAddr} {p : Nat} (h : lookupPort c addr = some p) : p < c.nPorts := by
  obtain ⟨-, pair, hp, -⟩ := lookupFrom_some h
  exact (List.getElem?_eq_some_iff.1 hp).1

/-- Everything an INIT word can do (40_host_commands.md R78, 60_exceptions.md R132). -/
theorem initCommand_ok (ch : Chan) (pin : Pin) (addr : RegAddr) (s t : State) (h : initCommand ch pin addr s = .ok t) :
    (s.cfg.nCh ≤ ch.toNat ∧ t = s.setFlag .ch) ∨
    (ch.toNat < s.cfg.nCh ∧ ch ≠ s.initCount ∧ t = s.setFlag .seq) ∨
    (ch.toNat < s.cfg.nCh ∧ ch = s.initCount ∧ lookupPort s.cfg addr = none ∧ t = s.setFlag .addr) ∨
    (ch.toNat < s.cfg.nCh ∧ ch = s.initCount ∧ ∃ port, lookupPort s.cfg addr = some port ∧
      acceptInit ch pin port s = .ok t) := by
  unfold initCommand at h
  split at h
  · exact .inl ⟨‹_›, by simpa using h⟩
  · split at h
    · exact .inr (.inl ⟨by omega, ‹_›, by simpa using h⟩)
    · split at h
      · exact .inr (.inr (.inl ⟨by omega, by simp_all, ‹_›, by simpa using h⟩))
      · exact .inr (.inr (.inr ⟨by omega, by simp_all, _, ‹_›, h⟩))

/-- Everything a SETANG word can do (40_host_commands.md R79, 60_exceptions.md R132). -/
theorem setangCommand_ok (ch : Chan) (angle : BitVec 16) (s t : State) (h : setangCommand ch angle s = .ok t) :
    (s.cfg.nCh ≤ ch.toNat ∧ t = s.setFlag .ch) ∨
    (ch.toNat < s.cfg.nCh ∧ s.initCount.toNat ≤ ch.toNat ∧ t = s.setFlag .uninit) ∨
    (ch.toNat < s.cfg.nCh ∧ ch.toNat < s.initCount.toNat ∧ angle.toNat ≤ 180 ∧
      s.setAngle ch.toNat (storedAngle angle) = .ok t) ∨
    (ch.toNat < s.cfg.nCh ∧ ch.toNat < s.initCount.toNat ∧ 180 < angle.toNat ∧ t = s) := by
  unfold setangCommand at h
  split at h
  · exact .inl ⟨‹_›, by simpa using h⟩
  · split at h
    · exact .inr (.inl ⟨by omega, ‹_›, by simpa using h⟩)
    · split at h
      · exact .inr (.inr (.inl ⟨by omega, by omega, by simpa [angleValid] using ‹angleValid angle = true›, h⟩))
      · refine .inr (.inr (.inr ⟨by omega, by omega, ?_, by simpa [eq_comm] using h⟩))
        simpa [angleValid] using ‹¬ angleValid angle = true›

/-- The stored byte of a valid angle is the angle (40_host_commands.md R79). -/
theorem storedAngle_toNat (angle : BitVec 16) (h : angle.toNat ≤ 180) : (storedAngle angle).toNat = angle.toNat := by
  simp [storedAngle]; omega

/-- The pin drive writes the output bit of an initialized channel, and nothing otherwise (43_gpio_toggle.md R123). -/
theorem drivePin_ok (ch : Chan) (sl : Slot) (v : Bool) (s t : State) :
    drivePin ch sl v s = .ok t ↔
      (ch.toNat < s.initCount.toNat ∧ sl.port.toNat < s.out.length ∧
        t = { s with out := s.out.modify sl.port.toNat fun r => setBit r sl.pin v }) ∨
      (s.initCount.toNat ≤ ch.toNat ∧ t = s) := by
  unfold drivePin State.initialized
  by_cases h : ch.toNat < s.initCount.toNat
  · simp [h, writeGpioBit_out_ok]
  · simp [h, eq_comm, Nat.le_of_not_lt h]

/-- The output registers after an event on slot `sl` (43_gpio_toggle.md R123). -/
def eventOut (s : State) (sl : Slot) : List Byte :=
  if s.initialized s.activeCh then s.out.modify sl.port.toNat fun r => setBit r sl.pin s.phase.bit else s.out

/-- Everything an EVENT can do (41_timer_event.md R94, R95). -/
theorem event_ok (s t : State) :
    event s = .ok t ↔
      ∃ sl, s.slot? s.activeCh.toNat = some sl ∧
        (s.activeCh.toNat < s.initCount.toNat → sl.port.toNat < s.out.length) ∧
        duration s.cfg sl.angle.toNat < s.cfg.span ∧
        t = { s with
          out := eventOut s sl,
          compare := duration s.cfg sl.angle.toNat,
          activeCh := if s.phase = .high then s.activeCh else nextChannel s.cfg s.activeCh,
          phase := if s.phase = .high then .low else .high } := by
  unfold event
  rcases hs : s.slot? s.activeCh.toNat with _ | sl
  · simp
  by_cases hi : s.activeCh.toNat < s.initCount.toNat <;>
    by_cases hp : sl.port.toNat < s.out.length <;>
      by_cases hd : duration s.cfg sl.angle.toNat < s.cfg.span <;>
        cases hph : s.phase <;>
          simp [hi, hp, hd, hph, drivePin, State.initialized, eventOut, State.writeGpioBit, State.setCompare, bind,
            Except.bind, State.setSequencer, Phase.bit, eq_comm]

/-- Everything a TICK can do (41_timer_event.md R91). -/
theorem timerTick_ok (s t : State) (h : timerTick s = .ok t) :
    (s.run = false ∧ t = s) ∨
    (s.run = true ∧ nextCount s ≠ s.compare ∧ t = s.setCounter (nextCount s)) ∨
    (s.run = true ∧ nextCount s = s.compare ∧ event (s.setCounter 0) = .ok t) := by
  unfold timerTick at h
  cases hr : s.run <;> simp only [hr, Bool.false_eq_true, ↓reduceIte, Except.ok.injEq] at h
  · exact .inl ⟨rfl, h.symm⟩
  · split at h
    · exact .inr (.inr ⟨rfl, ‹_›, h⟩)
    · exact .inr (.inl ⟨rfl, ‹_›, by simpa using h.symm⟩)

end Sys2Proof.Machine
end

