-- ==== Sys2Proof/Laws/Exec.lean ====
section
/-!
SUPPORT. Say once what exec and step can do: if they answer a next state, then one of these cases holds. Every
invariant follows from these two lemmas and the lemmas of the shared operations (Laws/Ops.lean).
-/

namespace Sys2Proof.Machine

/-- Everything exec can do when it answers a next state. -/
theorem exec_next_cases (i : Instr) (s t : State) (h : exec i s = .next t) :
    s.cfg.WellFormed ∧
    ((i.HasEncoding ∧ ∃ e, t = s.setFlag e) ∨
     (∃ ch pin addr port, i = .init ch pin addr ∧ ch.toNat < s.cfg.nCh ∧ ch = s.initCount ∧
        lookupPort s.cfg addr = some port ∧ acceptInit ch pin port s = .ok t) ∨
     (∃ ch angle, i = .setang ch angle ∧ ch.toNat < s.cfg.nCh ∧ ch.toNat < s.initCount.toNat ∧
        ((angle.toNat ≤ 180 ∧ s.setAngle ch.toNat (storedAngle angle) = .ok t) ∨ (180 < angle.toNat ∧ t = s))) ∨
     (i = .rdstat ∧ t = s.giveHost s.status) ∨
     (i = .tick ∧ timerTick s = .ok t) ∨
     (i = .event ∧ event s = .ok t)) := by
  cases i
  case init ch pin addr =>
    obtain ⟨hw, h⟩ := (underConfig_next ..).1 h
    refine ⟨hw, ?_⟩
    rcases initCommand_ok _ _ _ _ _ h with ⟨-, h⟩ | ⟨-, -, h⟩ | ⟨-, -, -, h⟩ | ⟨h1, h2, port, h3, h4⟩
    · exact .inl ⟨rfl, _, h⟩
    · exact .inl ⟨rfl, _, h⟩
    · exact .inl ⟨rfl, _, h⟩
    · exact .inr (.inl ⟨ch, pin, addr, port, rfl, h1, h2, h3, h4⟩)
  case setang ch angle =>
    obtain ⟨hw, h⟩ := (underConfig_next ..).1 h
    refine ⟨hw, ?_⟩
    rcases setangCommand_ok _ _ _ _ h with ⟨-, h⟩ | ⟨-, -, h⟩ | ⟨h1, h2, h3, h4⟩ | ⟨h1, h2, h3, h4⟩
    · exact .inl ⟨rfl, _, h⟩
    · exact .inl ⟨rfl, _, h⟩
    · exact .inr (.inr (.inl ⟨ch, angle, rfl, h1, h2, .inl ⟨h3, h4⟩⟩))
    · exact .inr (.inr (.inl ⟨ch, angle, rfl, h1, h2, .inr ⟨h3, h4⟩⟩))
  case rdstat =>
    obtain ⟨hw, h⟩ := (underConfig_next s t (.ok (s.giveHost s.status))).1 h
    exact ⟨hw, .inr (.inr (.inr (.inl ⟨rfl, by simpa [eq_comm] using h⟩)))⟩
  case tick =>
    obtain ⟨hw, h⟩ := (underConfig_next ..).1 h
    exact ⟨hw, .inr (.inr (.inr (.inr (.inl ⟨rfl, h⟩))))⟩
  case event =>
    obtain ⟨hw, h⟩ := (underConfig_next ..).1 h
    exact ⟨hw, .inr (.inr (.inr (.inr (.inr ⟨rfl, h⟩))))⟩
  all_goals
    obtain ⟨hw, h⟩ := (underConfig_next s t (reject .op s)).1 h
    exact ⟨hw, .inl ⟨rfl, _, (reject_ok ..).1 h⟩⟩

/-- Everything a host write can do when it answers a next state (20_memory.md R44, R45). -/
theorem hostWrite_next_cases (addr : Nat) (bytes : List Byte) (s t : State) (h : hostWrite addr bytes s = .next t) :
    (addr = s.cfg.blockBase ∧ ∃ i, decodeBytes bytes = .ok i ∧ exec i s = .next t) ∨
    (addr = s.cfg.blockBase + 4 ∧ bytes.length = 4 ∧ s.cfg.WellFormed ∧ t = s) := by
  unfold hostWrite at h
  split at h
  · rename_i ha
    split at h
    · exact .inl ⟨ha, _, ‹_›, h⟩
    · cases h
  · split at h
    · rename_i ha
      obtain ⟨hw, he⟩ := (underConfig_next s t (.ok s)).1 h
      exact .inr ⟨ha.1, ha.2, hw, by simpa [eq_comm] using he⟩
    · cases h

/-- Everything a host read can do when it answers a next state (20_memory.md R44, R45). -/
theorem hostRead_next_cases (addr size : Nat) (s t : State) (h : hostRead addr size s = .next t) :
    (addr = s.cfg.blockBase + 4 ∧ size = 4) ∧ exec .rdstat s = .next t := by
  unfold hostRead at h
  split at h
  · exact ⟨‹_›, h⟩
  · cases h

/-- Everything a host GPIO write can do when it answers a next state (43_gpio_toggle.md R126). -/
theorem hostGpioWrite_next_cases (reg : GpioReg) (port : Nat) (bit : Pin) (v : Bool) (s t : State)
    (h : hostGpioWrite reg port bit v s = .next t) :
    port < s.cfg.nPorts ∧ s.cfg.WellFormed ∧ s.writeGpioBit reg port bit v = .ok t := by
  unfold hostGpioWrite at h
  split at h
  · exact ⟨‹_›, (underConfig_next ..).1 h⟩
  · cases h

/-- Everything step can do when it answers a next state. -/
theorem step_next_cases (s t : State) (h : step s = .next t) :
    (s.pending = [] ∧ exec .tick s = .next t) ∨
    ∃ a rest, s.pending = a :: rest ∧
      ((∃ bytes i, a = .write s.cfg.blockBase bytes ∧ decodeBytes bytes = .ok i ∧
          exec i (s.withPending rest) = .next t) ∨
       (∃ bytes, a = .write (s.cfg.blockBase + 4) bytes ∧ bytes.length = 4 ∧ s.cfg.WellFormed ∧
          t = s.withPending rest) ∨
       (a = .read (s.cfg.blockBase + 4) 4 ∧ exec .rdstat (s.withPending rest) = .next t) ∨
       (∃ reg port bit v, a = .gpio reg port bit v ∧ port < s.cfg.nPorts ∧ s.cfg.WellFormed ∧
          (s.withPending rest).writeGpioBit reg port bit v = .ok t) ∨
       (a = .tick ∧ exec .tick (s.withPending rest) = .next t) ∨
       (a = .reset ∧ s.cfg.WellFormed ∧ t = (s.withPending rest).afterReset)) := by
  unfold step takeNext at h
  rcases hp : s.pending with _ | ⟨a, rest⟩
  · rw [hp] at h
    exact .inl ⟨rfl, h⟩
  rw [hp] at h
  refine .inr ⟨a, rest, rfl, ?_⟩
  cases a with
  | write addr bytes =>
    rcases hostWrite_next_cases _ _ _ _ h with ⟨rfl, i, hd, he⟩ | ⟨rfl, hl, hw, ht⟩
    · exact .inl ⟨bytes, i, rfl, hd, he⟩
    · exact .inr (.inl ⟨bytes, rfl, hl, hw, ht⟩)
  | read addr size =>
    obtain ⟨⟨rfl, rfl⟩, he⟩ := hostRead_next_cases _ _ _ _ h
    exact .inr (.inr (.inl ⟨rfl, he⟩))
  | gpio reg port bit v =>
    obtain ⟨hp, hw, he⟩ := hostGpioWrite_next_cases _ _ _ _ _ _ h
    exact .inr (.inr (.inr (.inl ⟨reg, port, bit, v, rfl, hp, hw, he⟩)))
  | tick => exact .inr (.inr (.inr (.inr (.inl ⟨rfl, h⟩))))
  | reset =>
    obtain ⟨hw, he⟩ := (underConfig_next _ t (.ok (s.withPending rest).afterReset)).1 h
    exact .inr (.inr (.inr (.inr (.inr ⟨rfl, hw, by simpa [eq_comm] using he⟩))))

/-! Runs, stated of any machine of the host's interface and then of this one. -/

/-- A run whose first step completes. -/
theorem hostRun_succ (M : Host.Core) (k : Nat) (s t : M.State) (h : M.step s = .next t) :
    M.run (k + 1) s = M.run k t := by
  simp only [Host.Core.run, h]

/-- A run of one step is that step. -/
theorem hostRun_one (M : Host.Core) (s : M.State) : M.run 1 s = M.step s := by
  simp only [Host.Core.run]
  cases M.step s <;> rfl

/-- A run taken in two parts. -/
theorem hostRun_add (M : Host.Core) (j k : Nat) (s t : M.State) (h : M.run j s = .next t) :
    M.run (j + k) s = M.run k t := by
  induction j generalizing s with
  | zero =>
    simp only [Host.Core.run, Host.Outcome.next.injEq] at h
    rw [Nat.zero_add, h]
  | succ j ih =>
    simp only [Host.Core.run] at h
    rcases hs : M.step s with u | r | r
    · simp only [hs] at h
      rw [Nat.succ_add, hostRun_succ M _ s u hs]
      exact ih u h
    · simp [hs] at h
    · simp [hs] at h

/-- A run that completes has a first step that does. -/
theorem hostRun_succ_next (M : Host.Core) (k : Nat) (s t : M.State) (h : M.run (k + 1) s = .next t) :
    ∃ u, M.step s = .next u ∧ M.run k u = .next t := by
  simp only [Host.Core.run] at h
  rcases hs : M.step s with u | r | r
  · exact ⟨u, rfl, by simpa only [hs] using h⟩
  · simp [hs] at h
  · simp [hs] at h

theorem core_run_zero (s : State) : core.run 0 s = .next s := rfl

theorem core_run_one (s : State) : core.run 1 s = step s := hostRun_one core s

theorem core_run_succ (k : Nat) (s t : State) (h : step s = .next t) : core.run (k + 1) s = core.run k t :=
  hostRun_succ core k s t h

theorem core_run_add (j k : Nat) (s t : State) (h : core.run j s = .next t) : core.run (j + k) s = core.run k t :=
  hostRun_add core j k s t h

theorem core_run_succ_next (k : Nat) (s t : State) (h : core.run (k + 1) s = .next t) :
    ∃ u, step s = .next u ∧ core.run k u = .next t := hostRun_succ_next core k s t h

/-- With no agent's step left, a step is a tick (log 3). -/
theorem step_of_pending_nil (s : State) (h : s.pending = []) : step s = exec .tick s := by
  unfold step takeNext
  rw [h]
  rfl

end Sys2Proof.Machine
end

