-- ==== Sys2Proof/Laws/PerInstr.lean ====
section
/-!
SUPPORT. The statements about every instruction, one lemma per constructor: family EncodeMatchesRow, the word of a
well-formed instruction selects its row of spec/opcode_table.json under the row's mask (30_encoding.md R67).
-/

namespace Sys2Proof.Laws

/-- `w &&& mask = match` for the word of a well-formed instruction and its row's mask and match (30_encoding.md R67). -/
def EncodeMatchesRow.Statement (i : Instr) : Prop :=
  i.WellFormed → ∀ w row, encode i = some w → encodingRow i = some row → w &&& row.1 = row.2

/-- The opcode mask keeps OP and drops the other 28 bits. -/
theorem encodeOpcode_mask (op : BitVec 4) (rest : BitVec 28) : encodeOpcode op rest &&& 0xF0000000 = op ++ 0#28 := by
  rw [show (0xF0000000 : Word) = 0xF#4 ++ 0#28 by decide, encodeOpcode, BitVec.and_append]
  simp only [BitVec.and_zero]
  congr 1
  revert op; decide

/-- INIT's mask keeps OP and the reserved bit. -/
theorem encodeFormatI_mask (rsv : BitVec 1) (ch : Chan) (pin : Pin) (addr : RegAddr) :
    encodeFormatI rsv ch pin addr &&& 0xF0080000 = 0x1#4 ++ 0#8 ++ rsv ++ 0#3 ++ 0#16 := by
  rw [show (0xF0080000 : Word) = 0xF#4 ++ 0#8 ++ 1#1 ++ 0#3 ++ 0#16 by decide]
  change (0x1#4 ++ ch ++ rsv ++ pin ++ addr : BitVec (4 + 8 + 1 + 3 + 16)) &&& (0xF#4 ++ 0#8 ++ 1#1 ++ 0#3 ++ 0#16) = _
  simp only [BitVec.and_append, BitVec.and_zero]
  revert rsv; decide

/-- A mask on OP and the reserved nibble keeps them. -/
theorem encodeFormatA_mask (ch : Chan) (rsv m : BitVec 4) (angle : BitVec 16) :
    encodeFormatA ch rsv angle &&& (0xF#4 ++ 0#8 ++ m ++ 0#16 : Word) = 0x2#4 ++ 0#8 ++ (rsv &&& m) ++ 0#16 := by
  change (0x2#4 ++ ch ++ rsv ++ angle : BitVec (4 + 8 + 4 + 16)) &&& (0xF#4 ++ 0#8 ++ m ++ 0#16) = _
  simp only [BitVec.and_append, BitVec.and_zero]
  rfl

theorem EncodeMatchesRow.init (ch : Chan) (pin : Pin) (addr : RegAddr) : EncodeMatchesRow.Statement (.init ch pin addr) := by
  rintro - w row ⟨⟩ ⟨⟩
  exact (encodeFormatI_mask ..).trans (by decide)

theorem EncodeMatchesRow.setang (ch : Chan) (angle : BitVec 16) : EncodeMatchesRow.Statement (.setang ch angle) := by
  rintro - w row ⟨⟩ ⟨⟩
  exact (encodeFormatA_mask ch 0 0xF angle).trans (by decide)

theorem EncodeMatchesRow.reservedOp0 (rest : BitVec 28) : EncodeMatchesRow.Statement (.reservedOp0 rest) := by
  rintro - w row ⟨⟩ ⟨⟩
  exact (encodeOpcode_mask ..).trans (by decide)

theorem EncodeMatchesRow.reservedOp3 (rest : BitVec 28) : EncodeMatchesRow.Statement (.reservedOp3 rest) := by
  rintro - w row ⟨⟩ ⟨⟩
  exact (encodeOpcode_mask ..).trans (by decide)

theorem EncodeMatchesRow.reservedOp4 (rest : BitVec 28) : EncodeMatchesRow.Statement (.reservedOp4 rest) := by
  rintro - w row ⟨⟩ ⟨⟩
  exact (encodeOpcode_mask ..).trans (by decide)

theorem EncodeMatchesRow.reservedOp5 (rest : BitVec 28) : EncodeMatchesRow.Statement (.reservedOp5 rest) := by
  rintro - w row ⟨⟩ ⟨⟩
  exact (encodeOpcode_mask ..).trans (by decide)

theorem EncodeMatchesRow.reservedOp6 (rest : BitVec 28) : EncodeMatchesRow.Statement (.reservedOp6 rest) := by
  rintro - w row ⟨⟩ ⟨⟩
  exact (encodeOpcode_mask ..).trans (by decide)

theorem EncodeMatchesRow.reservedOp7 (rest : BitVec 28) : EncodeMatchesRow.Statement (.reservedOp7 rest) := by
  rintro - w row ⟨⟩ ⟨⟩
  exact (encodeOpcode_mask ..).trans (by decide)

theorem EncodeMatchesRow.reservedOp8 (rest : BitVec 28) : EncodeMatchesRow.Statement (.reservedOp8 rest) := by
  rintro - w row ⟨⟩ ⟨⟩
  exact (encodeOpcode_mask ..).trans (by decide)

theorem EncodeMatchesRow.reservedOp9 (rest : BitVec 28) : EncodeMatchesRow.Statement (.reservedOp9 rest) := by
  rintro - w row ⟨⟩ ⟨⟩
  exact (encodeOpcode_mask ..).trans (by decide)

theorem EncodeMatchesRow.reservedOpA (rest : BitVec 28) : EncodeMatchesRow.Statement (.reservedOpA rest) := by
  rintro - w row ⟨⟩ ⟨⟩
  exact (encodeOpcode_mask ..).trans (by decide)

theorem EncodeMatchesRow.reservedOpB (rest : BitVec 28) : EncodeMatchesRow.Statement (.reservedOpB rest) := by
  rintro - w row ⟨⟩ ⟨⟩
  exact (encodeOpcode_mask ..).trans (by decide)

theorem EncodeMatchesRow.reservedOpC (rest : BitVec 28) : EncodeMatchesRow.Statement (.reservedOpC rest) := by
  rintro - w row ⟨⟩ ⟨⟩
  exact (encodeOpcode_mask ..).trans (by decide)

theorem EncodeMatchesRow.reservedOpD (rest : BitVec 28) : EncodeMatchesRow.Statement (.reservedOpD rest) := by
  rintro - w row ⟨⟩ ⟨⟩
  exact (encodeOpcode_mask ..).trans (by decide)

theorem EncodeMatchesRow.reservedOpE (rest : BitVec 28) : EncodeMatchesRow.Statement (.reservedOpE rest) := by
  rintro - w row ⟨⟩ ⟨⟩
  exact (encodeOpcode_mask ..).trans (by decide)

theorem EncodeMatchesRow.reservedOpF (rest : BitVec 28) : EncodeMatchesRow.Statement (.reservedOpF rest) := by
  rintro - w row ⟨⟩ ⟨⟩
  exact (encodeOpcode_mask ..).trans (by decide)

theorem EncodeMatchesRow.reservedInitB19 (ch : Chan) (pin : Pin) (addr : RegAddr) : EncodeMatchesRow.Statement (.reservedInitB19 ch pin addr) := by
  rintro - w row ⟨⟩ ⟨⟩
  exact (encodeFormatI_mask ..).trans (by decide)

theorem EncodeMatchesRow.reservedSetangB19 (ch : Chan) (rsv : BitVec 4) (angle : BitVec 16) : EncodeMatchesRow.Statement (.reservedSetangB19 ch rsv angle) := by
  rintro hw w row ⟨⟩ ⟨⟩
  replace hw : Instr.isWellFormed _ = true := hw
  simp only [Instr.isWellFormed] at hw
  have hb : rsv &&& 8 = 8 := by
    clear ch angle
    revert rsv; decide
  have h := encodeFormatA_mask ch rsv 8 angle
  rw [hb] at h
  exact h.trans (by decide)

theorem EncodeMatchesRow.reservedSetangB18 (ch : Chan) (rsv : BitVec 4) (angle : BitVec 16) : EncodeMatchesRow.Statement (.reservedSetangB18 ch rsv angle) := by
  rintro hw w row ⟨⟩ ⟨⟩
  replace hw : Instr.isWellFormed _ = true := hw
  simp only [Instr.isWellFormed] at hw
  have hb : rsv &&& 4 = 4 := by
    clear ch angle
    revert rsv; decide
  have h := encodeFormatA_mask ch rsv 4 angle
  rw [hb] at h
  exact h.trans (by decide)

theorem EncodeMatchesRow.reservedSetangB17 (ch : Chan) (rsv : BitVec 4) (angle : BitVec 16) : EncodeMatchesRow.Statement (.reservedSetangB17 ch rsv angle) := by
  rintro hw w row ⟨⟩ ⟨⟩
  replace hw : Instr.isWellFormed _ = true := hw
  simp only [Instr.isWellFormed] at hw
  have hb : rsv &&& 2 = 2 := by
    clear ch angle
    revert rsv; decide
  have h := encodeFormatA_mask ch rsv 2 angle
  rw [hb] at h
  exact h.trans (by decide)

theorem EncodeMatchesRow.reservedSetangB16 (ch : Chan) (rsv : BitVec 4) (angle : BitVec 16) : EncodeMatchesRow.Statement (.reservedSetangB16 ch rsv angle) := by
  rintro hw w row ⟨⟩ ⟨⟩
  replace hw : Instr.isWellFormed _ = true := hw
  simp only [Instr.isWellFormed] at hw
  have hb : rsv &&& 1 = 1 := by
    clear ch angle
    revert rsv; decide
  have h := encodeFormatA_mask ch rsv 1 angle
  rw [hb] at h
  exact h.trans (by decide)

theorem EncodeMatchesRow.rdstat : EncodeMatchesRow.Statement (.rdstat) := by
  rintro - w row ⟨⟩

theorem EncodeMatchesRow.tick : EncodeMatchesRow.Statement (.tick) := by
  rintro - w row ⟨⟩

theorem EncodeMatchesRow.event : EncodeMatchesRow.Statement (.event) := by
  rintro - w row ⟨⟩

end Sys2Proof.Laws
end

