-- ==== Sys2Proof/Laws/Status.lean ====
section
/-!
SUPPORT. The status word as a number (10_state.md R33), from which each of its fields is read.
-/

namespace Sys2Proof.Machine

/-- STATUS is the sum of its fields at their places; the reserved bits add nothing (10_state.md R33). -/
theorem status_toNat (s : State) :
    s.status.toNat = s.phase.bit.toNat * 2 ^ 24 + s.activeCh.toNat * 2 ^ 16 + s.initCount.toNat * 2 ^ 8 +
      s.run.toNat * 2 ^ 7 + s.errUninit.toNat * 2 ^ 4 + s.errAddr.toNat * 2 ^ 3 + s.errSeq.toNat * 2 ^ 2 +
      s.errCh.toNat * 2 + s.errOp.toNat := by
  have h7 : (0#7).toNat = 0 := rfl
  have h2 : (0#2).toNat = 0 := rfl
  simp only [State.status, append_toNat, BitVec.toNat_ofBool, h7, h2]
  omega

end Sys2Proof.Machine
end

