-- ==== Sys2Proof/Tests/Slice0.lean ====
section
/-!
SUPPORT. Tests: the well-formedness checks, every row's decoding from a word written out bit by bit, single steps against
the vectors of 95_test_vectors.md, and for every obligation with hypotheses a witness that meets them together.
-/

namespace Sys2Proof.Tests

open Sys2Proof.Machine

/-! ### Helpers -/

/-- The outcome is a next state with this property. -/
def reaches (o : Host.Outcome State Fault Refusal) (P : State → Bool) : Bool :=
  match o with
  | .next t => P t
  | .fault _ => false
  | .refused _ => false

theorem of_reaches {o : Host.Outcome State Fault Refusal} {P : State → Bool} (h : reaches o P = true) :
    ∃ t, o = .next t ∧ P t = true := by
  cases o with
  | next t => exact ⟨t, rfl, h⟩
  | fault f => cases h
  | refused r => cases h

/-- The state right after reset in TC1. -/
def reset1 : State := State.resetWith .tc1

/-- TC1 after `INIT 0,0,0x0024` (95_test_vectors.md I-1, the start of section 3.3). -/
def one : State :=
  { reset1 with initCount := 1, run := true, compare := 1000, dir := [0x01, 0, 0, 0, 0] }

/-- The start of 95_test_vectors.md section 3.8 at an entry (channel, phase) with OUT[0] given. -/
def two (ch : Chan) (ph : Phase) (out0 : Byte) : State :=
  { reset1 with
    slots := [⟨0, 0, 0⟩, ⟨1, 0, 180⟩], initCount := 2, run := true, compare := 1000, dir := [0x03, 0, 0, 0, 0],
    out := [out0, 0, 0, 0, 0], activeCh := ch, phase := ph }

/-- One step of the host: it writes this word to CMD. -/
def send (s : State) (w : Nat) : Host.Outcome State Fault Refusal := step (s.withFetchWord 32 w)

/-- The host's write of a word leaves this STATUS. -/
def sendStatus (s : State) (w : Nat) (status : Word) : Bool := reaches (send s w) fun t => t.status == status

/-! ### Well-formed configurations (00_scope.md R7; the last four values from 95_test_vectors.md section 3.6) -/

theorem test_config_accepted :
    ∀ c ∈ [.tc1, .tc2, .tc3, { Config.tc1 with nCh := 255 }, { Config.tc1 with w := 12 },
      { Config.tc1 with angleReset := 180 }], Config.WellFormed c := by decide

theorem test_config_channels_refused :
    ¬ Config.WellFormed { Config.tc1 with nCh := 0 } ∧ ¬ Config.WellFormed { Config.tc1 with nCh := 256 } := by decide

theorem test_config_ports_refused :
    ¬ Config.WellFormed { Config.tc1 with ports := [] } ∧
    ¬ Config.WellFormed { Config.tc1 with ports := [⟨0, 1⟩, ⟨2, 3⟩, ⟨4, 5⟩, ⟨6, 7⟩, ⟨8, 9⟩, ⟨10, 11⟩, ⟨12, 13⟩, ⟨14, 15⟩, ⟨16, 17⟩] } := by
  decide

theorem test_config_repeated_address_refused :
    ¬ Config.WellFormed { Config.tc1 with ports := [⟨0x24, 0x25⟩, ⟨0x27, 0x24⟩] } := by decide

theorem test_config_mapper_refused :
    ¬ Config.WellFormed { Config.tc1 with k := 0 } ∧ ¬ Config.WellFormed { Config.tc1 with base := 0 } := by decide

theorem test_config_width_refused : ¬ Config.WellFormed { Config.tc1 with w := 11 } := by decide

theorem test_config_initCompare_refused :
    ¬ Config.WellFormed { Config.tc1 with initCompare := 0 } ∧ ¬ Config.WellFormed { Config.tc1 with initCompare := 65536 } := by decide

theorem test_config_angleReset_refused : ¬ Config.WellFormed { Config.tc1 with angleReset := 181 } := by decide

/-! ### Well-formed instructions: each check refuses a term -/

theorem test_setangB19_refused : ¬ (Instr.reservedSetangB19 0 0b0111 0).WellFormed := by decide
theorem test_setangB18_refused :
    ¬ (Instr.reservedSetangB18 0 0b0011 0).WellFormed ∧ ¬ (Instr.reservedSetangB18 0 0b1100 0).WellFormed := by decide
theorem test_setangB17_refused :
    ¬ (Instr.reservedSetangB17 0 0b0001 0).WellFormed ∧ ¬ (Instr.reservedSetangB17 0 0b0110 0).WellFormed := by decide
theorem test_setangB16_refused :
    ¬ (Instr.reservedSetangB16 0 0b0000 0).WellFormed ∧ ¬ (Instr.reservedSetangB16 0 0b0011 0).WellFormed := by decide

/-! ### Decoding: one word per row, written out from the formats of 30_encoding.md R61 and the map of R67 -/

theorem test_decode_init :
    decode 0b0001_00000001_0_010_0000000000100100 = .init 1 2 0x0024 ∧
    decode 0b0001_11111111_0_111_1111111111111111 = .init 255 7 0xFFFF := by decide
theorem test_decode_setang :
    decode 0b0010_00000001_0000_0000000010110100 = .setang 1 180 ∧
    decode 0b0010_10000000_0000_1111111111111111 = .setang 128 0xFFFF := by decide
theorem test_decode_reservedOp0 : decode 0b0000_0000000000000000000000000001 = .reservedOp0 1 := by decide
theorem test_decode_reservedOp3 : decode 0b0011_0000000000000000000000000001 = .reservedOp3 1 := by decide
theorem test_decode_reservedOp4 : decode 0b0100_0000000000000000000000000001 = .reservedOp4 1 := by decide
theorem test_decode_reservedOp5 : decode 0b0101_0000000000000000000000000001 = .reservedOp5 1 := by decide
theorem test_decode_reservedOp6 : decode 0b0110_0000000000000000000000000001 = .reservedOp6 1 := by decide
theorem test_decode_reservedOp7 : decode 0b0111_0000000000000000000000000001 = .reservedOp7 1 := by decide
theorem test_decode_reservedOp8 : decode 0b1000_0000000000000000000000000001 = .reservedOp8 1 := by decide
theorem test_decode_reservedOp9 : decode 0b1001_0000000000000000000000000001 = .reservedOp9 1 := by decide
theorem test_decode_reservedOpA : decode 0b1010_0000000000000000000000000001 = .reservedOpA 1 := by decide
theorem test_decode_reservedOpB : decode 0b1011_0000000000000000000000000001 = .reservedOpB 1 := by decide
theorem test_decode_reservedOpC : decode 0b1100_0000000000000000000000000001 = .reservedOpC 1 := by decide
theorem test_decode_reservedOpD : decode 0b1101_0000000000000000000000000001 = .reservedOpD 1 := by decide
theorem test_decode_reservedOpE : decode 0b1110_0000000000000000000000000001 = .reservedOpE 1 := by decide
theorem test_decode_reservedOpF : decode 0b1111_1111111111111111111111111111 = .reservedOpF 0xFFFFFFF := by decide
theorem test_decode_reservedInitB19 :
    decode 0b0001_00000010_1_011_0000000000100100 = .reservedInitB19 2 3 0x0024 := by decide
theorem test_decode_reservedSetangB19 :
    decode 0b0010_00000010_1001_0000000001011010 = .reservedSetangB19 2 0b1001 90 := by decide
theorem test_decode_reservedSetangB18 :
    decode 0b0010_00000010_0101_0000000001011010 = .reservedSetangB18 2 0b0101 90 := by decide
theorem test_decode_reservedSetangB17 :
    decode 0b0010_00000010_0011_0000000001011010 = .reservedSetangB17 2 0b0011 90 := by decide
theorem test_decode_reservedSetangB16 :
    decode 0b0010_00000010_0001_0000000001011010 = .reservedSetangB16 2 0b0001 90 := by decide

/-- The three operations without a word have none (30_encoding.md R59). -/
theorem test_encode_none : encode .rdstat = none ∧ encode .tick = none ∧ encode .event = none := by decide

/-- The table of 95_test_vectors.md section 3.1 that is not above. -/
theorem test_decode_vectors :
    decode 0x10110024 = .init 1 1 0x0024 ∧ decode 0x10070030 = .init 0 7 0x0030 ∧
    (decode 0x10080024).Reserved ∧ (decode 0x20080000).Reserved ∧ (decode 0x2001005A).Reserved ∧
    (decode 0x00000000).Reserved ∧ (decode 0x30000000).Reserved ∧ (decode 0xFFFFFFFF).Reserved := by decide

/-- The lanes of 0x10110024, lowest address first (20_memory.md R41), and a list that is no word (30_encoding.md R58). -/
theorem test_bytes :
    decodeBytes [0x24, 0x00, 0x11, 0x10] = .ok (.init 1 1 0x0024) ∧
    decodeBytes [0x24, 0x00, 0x11] = .error (.notFourBytes 3) ∧ decodeTableWord 32 0x201000B4 = some (.setang 1 180) := by
  decide

/-! ### One step each, against 95_test_vectors.md section 3 -/

/-- I-1 and I-7. -/
theorem test_init_accepted :
    reaches (send reset1 0x10000024) (fun t =>
      t.slot? 0 == some ⟨0, 0, 90⟩ && t.dir == [0x01, 0, 0, 0, 0] && t.compare == 1000 && t.status == 0x00000180) = true ∧
    reaches (send reset1 0x10070030) (fun t =>
      t.slot? 0 == some ⟨7, 4, 90⟩ && t.dir == [0, 0, 0, 0, 0x80] && t.status == 0x00000180) = true := by decide

/-- I-2, I-3, I-4, I-5, I-9, I-6, I-10, I-11. -/
theorem test_init_rejected :
    sendStatus reset1 0x10100024 0x00000004 ∧ sendStatus reset1 0x10200024 0x00000002 ∧
    sendStatus reset1 0x10000099 0x00000008 ∧ sendStatus reset1 0x10000025 0x00000008 ∧
    sendStatus reset1 0x10500099 0x00000002 ∧ sendStatus one 0x10030027 0x00000184 ∧
    sendStatus (two 0 .low 0) 0x10110024 0x00000284 ∧ sendStatus (two 0 .low 0) 0x10200024 0x00000282 := by decide

/-- S-1 to S-4 and S-6: the stored angle. -/
theorem test_setang_angle :
    reaches (send one 0x20000000) (fun t => t.slot? 0 == some ⟨0, 0, 0⟩ && t.status == 0x00000180) = true ∧
    reaches (send one 0x200000B4) (fun t => t.slot? 0 == some ⟨0, 0, 180⟩ && t.status == 0x00000180) = true ∧
    reaches (send one 0x200000B5) (fun t => t == one) = true ∧ reaches (send one 0x20000100) (fun t => t == one) = true ∧
    reaches (send one 0x2000FFFF) (fun t => t == one) = true := by decide

/-- S-7, S-8, S-9. -/
theorem test_setang_rejected :
    sendStatus one 0x20100000 0x00000190 ∧ sendStatus one 0x201000C8 0x00000190 ∧
    sendStatus one 0x20200000 0x00000182 := by decide

/-- Section 3.4 and S-10: each sets ERR_OP only. -/
theorem test_reserved_words :
    ∀ w ∈ [0x00000000, 0x30000000, 0xFFFFFFFF, 0x10080024, 0x20080000, 0x2001FFFF],
      reaches (send reset1 w) (fun t => t == { reset1 with errOp := true }) = true := by decide

/-- Section 3.5, and what the host reads. -/
theorem test_rdstat :
    (two 1 .high 0).status = 0x01010280 ∧ (two 1 .low 0).status = 0x00010280 ∧ (two 0 .high 0).status = 0x01000280 ∧
    reaches (step (one.withPending [statusRead one.cfg]))
      (fun t => t == { one with lastRead := some 0x00000180 }) = true := by decide

/-- Section 3.6. -/
theorem test_duration :
    [0, 1, 45, 90, 179, 180].map (duration .tc1) = [1000, 1010, 1450, 1900, 2790, 2800] := by decide

/-- T-1, T-2, T-4, T-5. -/
theorem test_tick_counts :
    reaches (exec .tick reset1) (fun t => t == reset1) = true ∧
    reaches (exec .tick { one with counter := 5 }) (fun t => t == { one with counter := 6 }) = true ∧
    reaches (exec .tick { one with counter := 0xFFFF }) (fun t => t == one) = true ∧
    reaches (exec .tick { one with counter := 1000 }) (fun t => t == { one with counter := 1001 }) = true := by decide

/-- T-3: the tick that matches runs EVENT. -/
theorem test_tick_matches :
    reaches (exec .tick { two 0 .low 0x01 with counter := 999 }) (fun t => t == { two 1 .high 0 with counter := 0 }) = true := by
  decide

/-- T-6 and T-7: the ticks to the next event. -/
theorem test_ticksToEvent :
    { one with counter := 1200 }.ticksToEvent = 65336 ∧ { one with compare := 2800 }.ticksToEvent = 2800 ∧
    { one with counter := 1000 }.ticksToEvent = 65536 := by decide

/-- E-1 to E-6: the entry, OUT[0] before and after, COMPARE, the exit. -/
theorem test_event :
    reaches (exec .event (two 0 .high 0x00)) (fun t => t == two 0 .low 0x01) = true ∧
    reaches (exec .event (two 0 .low 0x01)) (fun t => t == two 1 .high 0x00) = true ∧
    reaches (exec .event (two 1 .high 0x00)) (fun t => t == { two 1 .low 0x02 with compare := 2800 }) = true ∧
    reaches (exec .event (two 1 .low 0x02)) (fun t => t == { two 0 .high 0x00 with compare := 2800 }) = true ∧
    reaches (exec .event (two 0 .high 0xF0)) (fun t => t == two 0 .low 0xF1) = true ∧
    reaches (exec .event (two 1 .low 0xF3)) (fun t => t == { two 0 .high 0xF1 with compare := 2800 }) = true := by decide

/-- E-8, E-9, E-10: a channel not initialized, one channel, and a pin whose direction bit the host has cleared. -/
theorem test_event_further :
    reaches (exec .event { one with activeCh := 1, phase := .high, out := [0x01, 0, 0, 0, 0] })
      (fun t => t == { one with activeCh := 1, phase := .low, out := [0x01, 0, 0, 0, 0], compare := 1900 }) = true ∧
    reaches (exec .event { one with cfg := .tc2, slots := [⟨0, 0, 90⟩] })
      (fun t => t.activeCh == 0 && t.phase == .high) = true ∧
    reaches (exec .event { two 0 .high 0 with dir := [0x02, 0, 0, 0, 0] })
      (fun t => t.outBit 0 0 && t.pinLevel 0 0 == .z) = true := by decide

/-- Section 3.9. -/
theorem test_lookup :
    [0x0024, 0x0027, 0x002A, 0x002D, 0x0030].map (lookupPort .tc1) = [some 0, some 1, some 2, some 3, some 4] ∧
    [0x0025, 0x0031, 0x0000, 0xFFFF].map (lookupPort .tc1) = [none, none, none, none] := by decide

/-- The start of I-12: `GPIOD 0,4,1` is one external write of DIR[0] bit 4 (30_encoding.md R74). -/
theorem test_gpiod :
    (playLine ⟨reset1, 0⟩ ⟨some 0, .gpiod 0 4 1⟩).map (fun p => (p.state.dir, p.ticks)) = some ([0x10, 0, 0, 0, 0], 0) := by
  decide

/-- The encodings beside the program text of P1 and P2, and the negative angle of 95_test_vectors.md L1-2. -/
theorem test_assembler :
    assembleInit 1 1 0x0024 = some 0x10110024 ∧ assembleInit 0 3 0x002A = some 0x1003002A ∧
    assembleSetang 1 180 = some 0x201000B4 ∧ assembleSetang 0 (-1) = some 0x2000FFFF ∧ assembleSetang 256 0 = none ∧
    assembleWord 0x2001005A = some 0x2001005A := by decide

/-! ### Witnesses: for each obligation with hypotheses, states and operands that meet them together, a witness for each
clause at a boundary of its range -/

/-- The invariant from its decidable parts. -/
theorem inv_of {s : State}
    (h : s.cfg.WellFormed ∧ s.Shape ∧ (∀ sl ∈ s.slots, sl.angle.toNat ≤ 180) ∧ s.initCount.toNat ≤ s.cfg.nCh ∧
      s.activeCh.toNat ≤ s.cfg.nCh - 1 ∧ (s.run = true ↔ 1 ≤ s.initCount.toNat) ∧ (s.run = true → 1 ≤ s.compare) ∧
      (s.run = false → s.counter = 0 ∧ s.activeCh = 0 ∧ s.phase = .low ∧ s.compare = 0) ∧
      (∀ c < s.initCount.toNat, ∀ sl ∈ s.slot? c, sl.port.toNat < s.cfg.nPorts) ∧
      (s.counter < s.cfg.span ∧ s.compare < s.cfg.span)) : s.Inv := by
  obtain ⟨h1, h2, h3, h4, h5, h6, h7, h8, h9, h10⟩ := h
  exact ⟨h1, h2, h3, h4, h5, h6, h7, h8, h9, h10⟩

theorem witness_inv_reset : reset1.Inv := inv_of (by decide)
theorem witness_inv_one : one.Inv := inv_of (by decide)
theorem witness_inv_two : (two 0 .high 0).Inv ∧ (two 0 .low 1).Inv := ⟨inv_of (by decide), inv_of (by decide)⟩

theorem witness_DecodeInvertsEncode :
    ∀ iw ∈ [(Instr.init 255 7 0xFFFF, (0x1FF7FFFF : Word)), (.setang 255 0xFFFF, 0x2FF0FFFF),
        (.reservedOpF 0xFFFFFFF, 0xFFFFFFFF), (.reservedSetangB16 0 1 0, 0x20010000)],
      iw.1.WellFormed ∧ encode iw.1 = some iw.2 := by decide

theorem witness_DecodeFollowsOpcodeMap :
    (BitVec.extractLsb' 28 4 0x1FF7FFFF#32 = 0b0001#4 ∧ BitVec.getLsbD 0x1FF7FFFF#32 19 = false) ∧
    (BitVec.extractLsb' 28 4 0x10080000#32 = 0b0001#4 ∧ BitVec.getLsbD 0x10080000#32 19 = true) ∧
    (BitVec.extractLsb' 28 4 0x2FF0FFFF#32 = 0b0010#4 ∧ BitVec.extractLsb' 16 4 0x2FF0FFFF#32 = 0#4) ∧
    (BitVec.extractLsb' 28 4 0x20010000#32 = 0b0010#4 ∧ BitVec.extractLsb' 16 4 0x20010000#32 ≠ 0#4) ∧
    (BitVec.extractLsb' 28 4 0x0FFFFFFF#32 ≠ 0b0001#4 ∧ BitVec.extractLsb' 28 4 0x0FFFFFFF#32 ≠ 0b0010#4) ∧
    (BitVec.extractLsb' 28 4 0x30000000#32 ≠ 0b0001#4 ∧ BitVec.extractLsb' 28 4 0x30000000#32 ≠ 0b0010#4) := by decide

theorem witness_MaskSelectsCommand :
    (∃ ch pin addr, decode 0x1FF7FFFF = .init ch pin addr) ∧ 0x1FF7FFFF#32 &&& 0xF0080000 = 0x10000000 ∧
    (∃ ch angle, decode 0x2FF0FFFF = .setang ch angle) ∧ 0x2FF0FFFF#32 &&& 0xF00F0000 = 0x20000000 ∧
    BitVec.extractLsb' 28 4 0x30000000#32 ≠ 0b0001#4 ∧ BitVec.extractLsb' 28 4 0x30000000#32 ≠ 0b0010#4 :=
  ⟨⟨255, 7, 0xFFFF, by decide⟩, by decide, ⟨255, 0xFFFF, by decide⟩, by decide, by decide, by decide⟩

theorem witness_ByteLanesCarryTheWord :
    (0 < 4 ∧ 3 < 4) ∧ ∀ bytes ∈ [([] : List Byte), [1, 2, 3], [1, 2, 3, 4, 5]], bytes.length ≠ 4 := by decide

/-- Both ends of each operand's range, and the first values outside; the angle's sign changes at 0. -/
theorem witness_AssemblerEmitsTheCommand :
    (assembleInit 0 0 0).isSome ∧ (assembleInit 255 7 0xFFFF).isSome ∧
    assembleInit (-1) 0 0 = none ∧ assembleInit 0 8 0 = none ∧ assembleInit 0 0 0x10000 = none ∧
    (assembleSetang 255 0xFFFF).isSome ∧ (assembleSetang 0 0).isSome ∧ (assembleSetang 0 (-1)).isSome ∧
    (assembleSetang 0 (-0x8000)).isSome ∧ assembleSetang 0 (-0x8001) = none ∧ assembleSetang 0 0x10000 = none := by decide

theorem witness_AcceptedInitEffect :
    (reset1.cfg.WellFormed ∧ reset1.Shape ∧ (0 : Chan).toNat < reset1.cfg.nCh ∧ 0 = reset1.initCount) ∧
    reset1.cfg.ports[4]? = some ⟨0x0030, 0x0031⟩ ∧ one.cfg.WellFormed ∧ one.Shape ∧ (1 : Chan).toNat < one.cfg.nCh ∧
    1 = one.initCount ∧ one.cfg.ports[0]? = some ⟨0x0024, 0x0025⟩ := by decide

/-- Each check at the boundary where it begins to fail: channel N_CH, a channel after and one before INIT_COUNT, an address
one above a direction register's. -/
theorem witness_RejectedInitSetsOneFlag :
    (one.cfg.WellFormed ∧ one.cfg.nCh ≤ (2 : Chan).toNat) ∧
    ((0 : Chan).toNat < one.cfg.nCh ∧ 0 ≠ one.initCount) ∧ ((1 : Chan).toNat < reset1.cfg.nCh ∧ 1 ≠ reset1.initCount) ∧
    ((1 : Chan).toNat < one.cfg.nCh ∧ 1 = one.initCount ∧ ∀ pair ∈ one.cfg.ports, pair.dirAddr ≠ 0x0025) := by decide

theorem witness_LookupFindsTheDirectionRegister :
    one.cfg.WellFormed ∧ (∃ pair ∈ one.cfg.ports, pair.outAddr = 0x0031) ∧ one.initCount.toNat < one.cfg.nCh ∧
    lookupPort one.cfg 0x0031 = none ∧ lookupPort one.cfg 0x0030 = some 4 := by decide

/-- Angles 180 and 181, the last initialized channel and the first that is not, and channel N_CH. -/
theorem witness_SetangSetsOnlyItsAngle :
    (one.cfg.WellFormed ∧ one.Shape ∧ (0 : Chan).toNat < one.cfg.nCh ∧ (0 : Chan).toNat < one.initCount.toNat) ∧
    (180 : BitVec 16).toNat ≤ 180 ∧ 180 < (181 : BitVec 16).toNat ∧
    one.cfg.nCh ≤ (2 : Chan).toNat ∧ one.initCount.toNat ≤ (1 : Chan).toNat := by decide

theorem witness_RejectedSetangSetsOneFlag :
    one.cfg.WellFormed ∧ one.cfg.nCh ≤ (2 : Chan).toNat ∧ (1 : Chan).toNat < one.cfg.nCh ∧
    one.initCount.toNat ≤ (1 : Chan).toNat := by decide

theorem witness_ReservedOpcodeIsRejected :
    one.cfg.WellFormed ∧
    (BitVec.extractLsb' 28 4 0x0FFFFFFF#32 ≠ 0b0001#4 ∧ BitVec.extractLsb' 28 4 0x0FFFFFFF#32 ≠ 0b0010#4) ∧
    (BitVec.extractLsb' 28 4 0x30000000#32 ≠ 0b0001#4 ∧ BitVec.extractLsb' 28 4 0x30000000#32 ≠ 0b0010#4) := by decide

theorem witness_ReservedBitsAreRejected :
    one.cfg.WellFormed ∧
    (BitVec.extractLsb' 28 4 0x10080000#32 = 0b0001#4 ∧ BitVec.getLsbD 0x10080000#32 19 = true) ∧
    (BitVec.extractLsb' 28 4 0x20010000#32 = 0b0010#4 ∧ BitVec.extractLsb' 16 4 0x20010000#32 ≠ 0#4) ∧
    (BitVec.extractLsb' 28 4 0x20080000#32 = 0b0010#4 ∧ BitVec.extractLsb' 16 4 0x20080000#32 ≠ 0#4) := by decide

theorem witness_EveryReservedRowCompletes :
    one.cfg.WellFormed ∧ (Instr.reservedOp0 0).Reserved ∧ (Instr.reservedSetangB16 0 1 0).Reserved := by decide

/-- A word that sets a flag and one that sets none. -/
theorem witness_CommandSetsAtMostOneFlag :
    (∃ t, exec (decode 0x30000000) one = .next t ∧ (t == { one with errOp := true }) = true) ∧
    (∃ t, exec (decode 0x20000000) one = .next t ∧ (t.status == one.status) = true) :=
  ⟨of_reaches (by decide), of_reaches (by decide)⟩

theorem witness_FlagsStickUntilReset :
    { one with errUninit := true }.NotResetNext ∧ { one with errUninit := true }.flag .uninit = true ∧
    ∃ t, step { one with errUninit := true } = .next t ∧ t.flag .uninit = true :=
  ⟨by decide, by decide, of_reaches (P := fun t => t.flag .uninit) (by decide)⟩

theorem witness_StatusReadHasNoSideEffect :
    one.cfg.WellFormed ∧
    (one.withPending [.read 4 4]).pending = .read (one.cfg.blockBase + 4) 4 :: [] := by decide

theorem witness_StatusWriteIsANoOp :
    (one.withPending [.write 4 [1, 2, 3, 4]]).cfg.WellFormed ∧ [1, 2, 3, (4 : Byte)].length = 4 ∧
    (one.withPending [.write 4 [1, 2, 3, 4]]).pending = .write (one.cfg.blockBase + 4) [1, 2, 3, 4] :: [] := by decide

/-- Three bytes at CMD, four bytes beside the window, a short read of STATUS, a read of CMD, and the no-op. -/
theorem witness_OtherHostAccessesAreRefused :
    [1, 2, (3 : Byte)].length ≠ 4 ∧ (8 ≠ one.cfg.blockBase ∧ 8 ≠ one.cfg.blockBase + 4) ∧
    (2 : Nat) ≠ 4 ∧ 0 ≠ one.cfg.blockBase + 4 ∧ one.cfg.WellFormed ∧ [1, 2, 3, (4 : Byte)].length = 4 := by decide

theorem witness_RepeatedCommands :
    ((180 : BitVec 16).toNat ≤ 180 ∧ ∃ t, exec (.setang 0 180) one = .next t ∧ (t.slot? 0 == some ⟨0, 0, 180⟩) = true) ∧
    (∃ t, exec (.init 1 7 0x0030) one = .next t ∧ (t.initCount != one.initCount) = true) :=
  ⟨⟨by decide, of_reaches (by decide)⟩, of_reaches (by decide)⟩

theorem witness_CommandsLeaveTheSequencerAlone :
    ∃ t, exec (decode 0x20000000) (two 1 .high 2) = .next t ∧ (t.slot? 0 == some ⟨0, 0, 0⟩ && t.activeCh == 1) = true :=
  of_reaches (by decide)

theorem witness_InitKeepsEveryAngle :
    ∃ t, exec (.init 1 7 0x0030) one = .next t ∧ (t.slot? 1 == some ⟨7, 4, 90⟩) = true := of_reaches (by decide)

/-- RUN = 0; a count, also where the counter wraps; and a match. -/
theorem witness_TickFollowsItsRule :
    (reset1.cfg.WellFormed ∧ reset1.run = false) ∧
    (∀ n ∈ [0, 998, 1000, 65535], (n + 1) % 2 ^ one.cfg.w ≠ one.compare) ∧ one.run = true ∧
    (999 + 1) % 2 ^ one.cfg.w = one.compare := by decide

theorem witness_MatchingTickCompletes :
    { two 1 .low 2 with counter := 999 }.Inv ∧ (two 1 .low 2).run = true ∧
    (999 + 1) % 2 ^ (two 1 .low 2).cfg.w = (two 1 .low 2).compare ∧
    (two 1 .low 2).slot? (two 1 .low 2).activeCh.toNat = some ⟨1, 0, 180⟩ :=
  ⟨inv_of (by decide), by decide, by decide, by decide⟩

/-- The second state's channel is not initialized. -/
theorem witness_HighEventEffect :
    (∀ s ∈ [two 1 .high 0, { one with activeCh := 1, phase := .high }],
      s.cfg.WellFormed ∧ s.phase = .high ∧ (s.slot? s.activeCh.toNat).isSome ∧ (∀ sl ∈ s.slots, sl.angle.toNat ≤ 180) ∧
      (∀ sl ∈ s.slots, sl.port.toNat < s.out.length)) ∧
    ¬ (1 : Chan).toNat < one.initCount.toNat := by decide

theorem witness_LowEventEffect :
    ∀ s ∈ [two 1 .low 2, { one with activeCh := 1, phase := .low }],
      s.cfg.WellFormed ∧ s.phase = .low ∧ (s.slot? s.activeCh.toNat).isSome ∧ (∀ sl ∈ s.slots, sl.angle.toNat ≤ 180) ∧
      (∀ sl ∈ s.slots, sl.port.toNat < s.out.length) := by decide

theorem witness_EventCannotFail :
    { one with activeCh := 1 }.Inv ∧ one.initCount.toNat ≤ (1 : Chan).toNat := ⟨inv_of (by decide), by decide⟩

/-- Three ticks before the match, with a status read among the steps: after one tick the next one counts, after two it
matches. Then a state with COUNTER = 0, and one at COMPARE, where m is 2^W. -/
theorem witness_IntervalLaw :
    let s : State := { one with counter := 997, pending := [.tick, statusRead one.cfg, .tick, .tick] }
    (s.cfg.WellFormed ∧ s.run = true ∧ 1 ≤ s.compare ∧ s.compare < s.cfg.span ∧ s.counter < s.cfg.span) ∧
    s.pending = [.tick, statusRead one.cfg] ++ [.tick, .tick] ∧
    s.pending = [.tick, statusRead one.cfg, .tick] ++ [.tick] ∧
    (∀ k, k ≤ 3 → reaches (core.run k s) (fun u => u.compare == s.compare) = true) ∧
    [Action.tick, statusRead one.cfg].count .tick + 1 < s.ticksToEvent ∧
    [Action.tick, statusRead one.cfg, .tick].count .tick + 1 = s.ticksToEvent ∧ one.counter = 0 ∧
    (let r : State := { one with counter := 1000, pending := [.tick] }
     r.compare = r.counter ∧ r.counter < r.cfg.span ∧ r.pending = [] ++ [.tick] ∧ r.ticksToEvent = 65536) := by decide

/-- COUNTER at its greatest value and COMPARE at 1: with no tick passed the next one wraps, with one passed it matches. Then
COUNTER at COMPARE, and an INIT that rewrites COMPARE at INIT_COMPARE. -/
theorem witness_CounterWrap :
    (let s : State := { one with counter := 65535, compare := 1, pending := [statusRead one.cfg, .tick, .tick] }
     (s.cfg.WellFormed ∧ s.run = true ∧ 1 ≤ s.compare ∧ s.compare ≤ s.counter ∧ s.counter < s.cfg.span) ∧
     s.pending = [statusRead one.cfg] ++ [.tick, .tick] ∧ s.pending = [statusRead one.cfg, .tick] ++ [.tick] ∧
     (∀ k, k ≤ 2 → reaches (core.run k s) (fun u => u.compare == s.compare) = true) ∧
     [statusRead one.cfg].count .tick + 1 < s.cfg.span - s.counter + s.compare ∧
     [statusRead one.cfg, .tick].count .tick + 1 = s.cfg.span - s.counter + s.compare) ∧
    (one.compare ≤ 1000 ∧ 1000 < one.cfg.span ∧ 1 < one.cfg.span - 1000 + one.compare) ∧
    ({ one with counter := 1000, compare := 2800, pending := [commandWrite one.cfg 0x10110024] }.Inv ∧ 1000 < 2800) ∧
    ∃ t, step { one with counter := 1000, compare := 2800, pending := [commandWrite one.cfg 0x10110024] } = .next t ∧
      (t.run && decide (t.compare ≤ t.counter)) = true :=
  ⟨by decide, by decide, ⟨inv_of (by decide), by decide⟩,
    of_reaches (P := fun t => t.run && decide (t.compare ≤ t.counter)) (by decide)⟩

theorem witness_SlotTiming :
    (two 1 .high 0).Inv ∧ (two 1 .high 0).run = true ∧ (two 1 .high 0).pending = [] ∧ (two 1 .high 0).phase = .high ∧
    (two 1 .high 0).counter = 0 ∧ (two 1 .high 0).slot? 1 = some ⟨1, 0, 180⟩ ∧
    (two 1 .high 0).activeCh.toNat < (two 1 .high 0).initCount.toNat :=
  ⟨inv_of (by decide), by decide, by decide, by decide, by decide, by decide, by decide⟩

/-- 95_test_vectors.md P1: the sweep is 7600 ticks. -/
theorem witness_SweepTiming :
    (two 0 .high 0).Inv ∧ (two 0 .high 0).run = true ∧ (two 0 .high 0).pending = [] ∧ (two 0 .high 0).phase = .high ∧
    (two 0 .high 0).activeCh = 0 ∧ (two 0 .high 0).counter = 0 ∧ (two 0 .high 0).sweepTicks = 7600 :=
  ⟨inv_of (by decide), by decide, by decide, by decide, by decide, by decide, by decide⟩

/-- Channel 0's pulse starts the sweep, channel 1's starts after channel 0's slot of 2000 ticks (95_test_vectors.md P1). -/
theorem witness_SweepPinTimes :
    (two 0 .high 0).Inv ∧ (two 0 .high 0).run = true ∧ (two 0 .high 0).pending = [] ∧ (two 0 .high 0).phase = .high ∧
    (two 0 .high 0).activeCh = 0 ∧ (two 0 .high 0).counter = 0 ∧
    (∀ c, c < (two 0 .high 0).initCount.toNat → ∀ sl ∈ (two 0 .high 0).slot? c,
      (two 0 .high 0).outBit sl.port.toNat sl.pin.toNat = false) ∧
    (∀ c, c < (two 0 .high 0).initCount.toNat → ∀ d, d < (two 0 .high 0).initCount.toNat →
      ∀ slc ∈ (two 0 .high 0).slot? c, ∀ sld ∈ (two 0 .high 0).slot? d,
        slc.port = sld.port → slc.pin = sld.pin → c = d) ∧
    (two 0 .high 0).pulseStart 0 = 0 ∧ (two 0 .high 0).pulseStart 1 = 2000 :=
  ⟨inv_of (by decide), by decide, by decide, by decide, by decide, by decide, by decide, by decide, by decide, by decide⟩

theorem witness_EventsVisitTheChannelsInOrder : (two 1 .high 0).Inv ∧ (two 1 .high 0).phase = .high :=
  ⟨inv_of (by decide), by decide⟩

theorem witness_FirstEventAfterReset :
    Config.tc1.WellFormed ∧ decode 0x10070030 = .init 0 7 0x0030 ∧ Config.tc1.ports[4]? = some ⟨0x0030, 0x0031⟩ ∧
    0 < Config.tc1.initCompare ∧ 999 < Config.tc1.initCompare := by decide

/-- 95_test_vectors.md P6a and P6b, with COUNTER just below and at INIT_COMPARE. -/
theorem witness_LateInitChangesTheSegment :
    (∀ n ∈ [999, 1000],
      { one with counter := n, compare := 2800, pending := [commandWrite one.cfg 0x10110024] }.Inv) ∧
    one.run = true ∧ one.initCount.toNat < one.cfg.nCh ∧ decode 0x10110024 = .init one.initCount 1 0x0024 ∧
    one.cfg.ports[0]? = some ⟨0x0024, 0x0025⟩ ∧ 999 < one.cfg.initCompare ∧ one.cfg.initCompare ≤ 1000 := by
  refine ⟨fun n hn => ?_, by decide, by decide, by decide, by decide, by decide, by decide⟩
  rcases List.mem_pair.1 hn with rfl | rfl <;> exact inv_of (by decide)

theorem witness_EventsRecur : one.Inv ∧ one.run = true ∧ one.pending = [] := ⟨inv_of (by decide), by decide, by decide⟩

theorem witness_DurationIsStrictlyIncreasing : Config.tc1.WellFormed ∧ 0 + 1 ≤ 180 ∧ 179 + 1 ≤ 180 ∧ 180 ≤ 180 := by decide

theorem witness_DurationsFitTheTimer :
    Config.tc1.WellFormed ∧ 0 ≤ 180 ∧ 180 ≤ 180 ∧ (two 1 .high 0).Inv ∧ (two 1 .high 0).slot? 1 = some ⟨1, 0, 180⟩ ∧
    (two 1 .high 0).counter = 0 ∧ ∃ t, exec .event (two 1 .high 0) = .next t ∧ (t.compare == 2800) = true :=
  ⟨by decide, by decide, by decide, inv_of (by decide), by decide, by decide, of_reaches (P := fun t => t.compare == 2800) (by decide)⟩

theorem witness_WidthIdentifiesTheAngle : Config.tc1.WellFormed ∧ duration .tc1 0 = 1000 ∧ duration .tc1 180 = 2800 := by
  decide

theorem witness_HostGpioWriteChangesOneBit :
    ∀ reg ∈ [GpioReg.dir, .out], ∀ port ∈ [0, 4],
      (one.withPending [.gpio reg port 7 true]).cfg.WellFormed ∧ (one.withPending [.gpio reg port 7 true]).Shape ∧
      port < one.cfg.nPorts := by decide

theorem witness_PinLevelFollowsDirAndOut :
    ((two 0 .low 1).dirBit 0 0 = true ∧ (two 0 .low 1).outBit 0 0 = true) ∧
    ((two 0 .low 1).dirBit 0 1 = true ∧ (two 0 .low 1).outBit 0 1 = false) ∧ (two 0 .low 1).dirBit 0 2 = false := by decide

theorem witness_DirBitsAreNeverCleared :
    one.dirBit 0 0 = true ∧ ∃ t, exec (.init 1 7 0x0030) one = .next t ∧ t.dirBit 4 7 = true :=
  ⟨by decide, of_reaches (P := fun t => t.dirBit 4 7) (by decide)⟩

theorem witness_OnlyNamedGpioBitsChange :
    (two 1 .high 0).Inv ∧ (∃ t, exec .event (two 1 .high 0) = .next t ∧ (t.outBit 0 1 != (two 1 .high 0).outBit 0 1) = true) ∧
    one.Inv ∧ ∃ t, exec (.init 1 7 0x0030) one = .next t ∧ (t.dirBit 4 7 != one.dirBit 4 7) = true :=
  ⟨inv_of (by decide), of_reaches (P := fun t => t.outBit 0 1 != (two 1 .high 0).outBit 0 1) (by decide), inv_of (by decide),
    of_reaches (P := fun t => t.dirBit 4 7 != one.dirBit 4 7) (by decide)⟩

theorem witness_PinsNeverInfluenceTheSps :
    (two 1 .high 0).AgreeOffPins { two 1 .high 0xFF with dir := [0, 0, 0, 0, 0xFF] } ∧
    ∃ t, core.run 2 { two 1 .high 0 with counter := 998 } = .next t ∧ (t.phase == .low) = true :=
  ⟨by decide, of_reaches (P := fun t => t.phase == .low) (by decide)⟩

theorem witness_ResetValues : Config.tc1.WellFormed ∧ 0 < Config.tc1.nCh ∧ 1 < Config.tc1.nCh := by decide

theorem witness_ResetSatisfiesTheInvariant : Config.tc1.WellFormed ∧ Config.tc3.WellFormed := by decide

/-- A rejected INIT, a SETANG, a host GPIO write and no step left; the first three leave a flag or a GPIO bit changed. -/
theorem witness_OnlyAnAcceptedInitStartsTheScheduler :
    ∀ as ∈ [[commandWrite .tc1 0x10100024], [commandWrite .tc1 0x20000000], [.gpio .dir 4 7 true], ([] : List Action)],
      (reset1.withPending as).Inv ∧ (reset1.withPending as).run = false ∧ (reset1.withPending as).NotResetNext ∧
      ¬ (reset1.withPending as).AcceptedInitNext ∧ ∃ t, step (reset1.withPending as) = .next t ∧ (t.run == false) = true := by
  intro as ha
  simp only [List.mem_cons, List.not_mem_nil, or_false] at ha
  rcases ha with rfl | rfl | rfl | rfl <;>
    refine ⟨inv_of (by decide), by decide, by decide, ?_, of_reaches (P := fun t => t.run == false) (by decide)⟩ <;>
    rintro ⟨bytes, rest, ch, pin, addr, port, hp, hd, -, hc, -⟩
  · cases hp
    cases hd
    exact absurd hc (by decide)
  · cases hp
    cases hd
  · cases hp
  · cases hp

theorem witness_StepKeepsTheInvariant :
    { one with pending := [commandWrite one.cfg 0x10170030] }.Inv ∧
    ∃ t, step { one with pending := [commandWrite one.cfg 0x10170030] } = .next t ∧ (t.initCount == 2) = true :=
  ⟨inv_of (by decide), of_reaches (P := fun t => t.initCount == 2) (by decide)⟩

/-- Every kind of step, and none left. -/
theorem witness_DefinedStepsComplete :
    one.Inv ∧ one.pending.head? = none ∧
    ∀ a ∈ [.write 0 [1, 2, 3, 4], .write 4 [1, 2, 3, 4], .read 4 4, .gpio .dir 4 7 true, .tick, .reset],
      Action.Defined one.cfg a ∧ (one.withPending [a]).pending.head? = some a :=
  ⟨inv_of (by decide), by decide, fun a ha => by
    simp only [List.mem_cons, List.not_mem_nil, or_false] at ha
    rcases ha with rfl | rfl | rfl | rfl | rfl | rfl <;> decide⟩

theorem witness_ResetInputRestoresTheResetState :
    (one.withPending [.reset, .tick]).cfg.WellFormed ∧ (one.withPending [.reset, .tick]).pending = .reset :: [.tick] := by
  decide

/-- A run that stays, and a count that rises. -/
theorem witness_RunAndCountNeverFall :
    { one with pending := [commandWrite one.cfg 0x10170030] }.Inv ∧
    { one with pending := [commandWrite one.cfg 0x10170030] }.NotResetNext ∧ one.run = true ∧
    ∃ t, step { one with pending := [commandWrite one.cfg 0x10170030] } = .next t ∧ (t.initCount == 2) = true :=
  ⟨inv_of (by decide), by decide, by decide, of_reaches (P := fun t => t.initCount == 2) (by decide)⟩

theorem witness_BoundSlotsKeepTheirPin :
    (one.withPending [commandWrite one.cfg 0x200000B4]).NotResetNext ∧ 0 < one.initCount.toNat ∧
    ∃ t, step (one.withPending [commandWrite one.cfg 0x200000B4]) = .next t ∧
      ((t.slot? 0).map Slot.angle != (one.slot? 0).map Slot.angle) = true :=
  ⟨by decide, by decide, of_reaches (P := fun t => (t.slot? 0).map Slot.angle != (one.slot? 0).map Slot.angle) (by decide)⟩

/-- One state for each clause. -/
theorem witness_StepRunsTheNextAction :
    (one.withPending [.write 0 [0x24, 0, 0x11, 0x10]]).pending = .write one.cfg.blockBase [0x24, 0, 0x11, 0x10] :: [] ∧
    (one.withPending [commandWrite one.cfg 0x10110024]).pending = commandWrite one.cfg 0x10110024 :: [] ∧
    0xFFFFFFFF < 2 ^ 32 ∧ (one.withPending [.read 4 4]).pending = .read (one.cfg.blockBase + 4) 4 :: [] ∧
    (one.withPending [.tick]).pending = .tick :: [] ∧ one.pending = [] := by decide

theorem witness_IllFormedConfigurationIsRefused : ¬ { one with cfg := { Config.tc1 with k := 0 } }.cfg.WellFormed := by decide

theorem witness_NothingWritesTheConfiguration : ∃ t, step one = .next t ∧ (t.counter == 1) = true := of_reaches (by decide)

end Sys2Proof.Tests
end

/-!
PROOFS. The scope of the model (00_scope.md): every meaning is an effect under the state's configuration, so a
configuration that breaks R7 is refused whatever the instruction.
-/

namespace Sys2Proof.Machine

/-- The effect of an instruction apart from the configuration check: R78, R79, R82 (40_host_commands.md), R91, R94
(41_timer_event.md); every other instruction is a reserved word, `raise Reject(ERR_OP)` (R80, R81). -/
def instrEffect : Instr → State → Except Fault State
  | .init ch pin addr, s => initCommand ch pin addr s
  | .setang ch angle, s => setangCommand ch angle s
  | .rdstat, s => .ok (s.giveHost s.status)
  | .tick, s => timerTick s
  | .event, s => event s
  | _, s => reject .op s

/-- No instruction runs outside the configuration check (00_scope.md R7). -/
theorem exec_eq_underConfig (i : Instr) (s : State) : exec i s = underConfig s (instrEffect i s) := by
  cases i <;> rfl

/-- Settles O59: the configuration check stands before every effect and refuses. -/
theorem illFormedConfigurationIsRefused : Obligations.IllFormedConfigurationIsRefused := by
  intro i s hcfg
  calc exec i s = underConfig s (instrEffect i s) := exec_eq_underConfig i s
    _ = .refused .illFormedConfiguration := underConfig_refused s _ hcfg

end Sys2Proof.Machine

/-!
PROOFS. 10_state.md: what every step keeps. A step is one agent's action performed on the state with that action taken
off the list; `AgentStep` says once, in the state's own words, what each action can do, and each statement of this part
is one case analysis of it.
-/

namespace Sys2Proof.Machine

/-! ### What one agent's step can do -/

theorem decodeFormatI_hasEncoding (w : Word) : (decodeFormatI w).HasEncoding := by
  unfold decodeFormatI
  split <;> rfl

theorem decodeFormatA_hasEncoding (w : Word) : (decodeFormatA w).HasEncoding := by
  unfold decodeFormatA
  repeat' split
  all_goals rfl

/-- No command word decodes to RDSTAT, TICK or EVENT (30_encoding.md R59). -/
theorem decode_hasEncoding (w : Word) : (decode w).HasEncoding := by
  unfold decode
  split
  case h_2 => exact decodeFormatI_hasEncoding w
  case h_3 => exact decodeFormatA_hasEncoding w
  all_goals rfl

theorem decodeBytes_hasEncoding {bytes : List Byte} {i : Instr} (h : decodeBytes bytes = .ok i) : i.HasEncoding := by
  unfold decodeBytes at h
  split at h
  · cases h; exact decode_hasEncoding _
  · cases h

/-- The action the next step performs: the first of the list, or a tick when the list is empty (log 3). -/
def State.nextAction (s : State) : Action := s.pending.headD .tick

/-- The state with that action taken off the list. -/
def State.taken (s : State) : State := s.withPending s.pending.tail

theorem step_eq_perform (s : State) : step s = perform s.nextAction s.taken := by
  rcases s with ⟨_, _ | ⟨a, rest⟩⟩ <;> rfl

theorem nextAction_ne_reset {s : State} (h : s.NotResetNext) : s.nextAction ≠ .reset := by
  rcases hp : s.pending with _ | ⟨a, rest⟩ <;> simp_all [State.NotResetNext, State.nextAction]

/-- A write comes from the list: the action of an empty list is a tick. -/
theorem pending_of_nextAction_write {s : State} {addr : Nat} {bytes : List Byte}
    (h : s.nextAction = .write addr bytes) : s.pending = .write addr bytes :: s.pending.tail := by
  rcases hp : s.pending with _ | ⟨a, rest⟩ <;> simp_all [State.nextAction]

/-- What an agent's action can do when it completes: one constructor per action and outcome of its rule. -/
inductive AgentStep (u : State) : Action → State → Prop
  /-- A command word is rejected (60_exceptions.md R130). -/
  | rejected {bytes : List Byte} {i : Instr} (e : ErrFlag) (hdecode : decodeBytes bytes = .ok i) :
      AgentStep u (.write u.cfg.blockBase bytes) (u.setFlag e)
  /-- INIT is accepted (40_host_commands.md R78). -/
  | initAccepted {bytes : List Byte} {pin : Pin} {addr : RegAddr} {port : Nat} {t : State}
      (hdecode : decodeBytes bytes = .ok (.init u.initCount pin addr)) (hch : u.initCount.toNat < u.cfg.nCh)
      (hport : lookupPort u.cfg addr = some port) (haccept : acceptInit u.initCount pin port u = .ok t) :
      AgentStep u (.write u.cfg.blockBase bytes) t
  /-- SETANG stores a valid angle (40_host_commands.md R79). -/
  | angleStored {bytes : List Byte} {ch : Chan} {angle : BitVec 16} {t : State}
      (hdecode : decodeBytes bytes = .ok (.setang ch angle)) (hch : ch.toNat < u.initCount.toNat)
      (hangle : angle.toNat ≤ 180) (hset : u.setAngle ch.toNat (storedAngle angle) = .ok t) :
      AgentStep u (.write u.cfg.blockBase bytes) t
  /-- SETANG ignores an angle above 180 (40_host_commands.md R79). -/
  | angleIgnored {bytes : List Byte} {ch : Chan} {angle : BitVec 16}
      (hdecode : decodeBytes bytes = .ok (.setang ch angle)) (hch : ch.toNat < u.initCount.toNat)
      (hangle : 180 < angle.toNat) :
      AgentStep u (.write u.cfg.blockBase bytes) u
  /-- The no-op write to STATUS (40_host_commands.md R83). -/
  | statusWritten {bytes : List Byte} (hlen : bytes.length = 4) : AgentStep u (.write (u.cfg.blockBase + 4) bytes) u
  /-- RDSTAT (40_host_commands.md R82). -/
  | statusRead : AgentStep u (.read (u.cfg.blockBase + 4) 4) (u.giveHost u.status)
  /-- The host writes a GPIO bit (43_gpio_toggle.md R126). -/
  | gpioWritten {reg : GpioReg} {port : Nat} {bit : Pin} {v : Bool} {t : State} (hport : port < u.cfg.nPorts)
      (hwrite : u.writeGpioBit reg port bit v = .ok t) : AgentStep u (.gpio reg port bit v) t
  /-- A tick while RUN is 0 (41_timer_event.md R91). -/
  | tickStopped (hrun : u.run = false) : AgentStep u .tick u
  /-- A tick that counts (41_timer_event.md R91). -/
  | tickCounted (hrun : u.run = true) (hcount : nextCount u ≠ u.compare) :
      AgentStep u .tick (u.setCounter (nextCount u))
  /-- A tick that matches COMPARE and runs EVENT (41_timer_event.md R98). -/
  | tickMatched {t : State} (hrun : u.run = true) (hmatch : nextCount u = u.compare)
      (hevent : event (u.setCounter 0) = .ok t) : AgentStep u .tick t
  /-- Reset (70_reset_and_hazards.md R147). -/
  | reset : AgentStep u .reset u.afterReset

theorem agentStep_of_exec_word {bytes : List Byte} {i : Instr} {u t : State} (hd : decodeBytes bytes = .ok i)
    (h : exec i u = .next t) : AgentStep u (.write u.cfg.blockBase bytes) t := by
  have henc := decodeBytes_hasEncoding hd
  obtain ⟨-, ⟨-, e, rfl⟩ | ⟨ch, pin, addr, port, rfl, hch, rfl, hport, ht⟩ | ⟨ch, angle, rfl, -, hinit, hang⟩ |
    ⟨rfl, -⟩ | ⟨rfl, -⟩ | ⟨rfl, -⟩⟩ := exec_next_cases i u t h
  · exact .rejected e hd
  · exact .initAccepted hd hch hport ht
  · rcases hang with ⟨hle, ht⟩ | ⟨hgt, rfl⟩
    · exact .angleStored hd hinit hle ht
    · exact .angleIgnored hd hinit hgt
  all_goals cases henc

theorem agentStep_of_exec_tick {u t : State} (h : exec .tick u = .next t) : AgentStep u .tick t := by
  obtain ⟨-, ht⟩ := (underConfig_next u t (timerTick u)).1 h
  rcases timerTick_ok u t ht with ⟨hrun, rfl⟩ | ⟨hrun, hne, rfl⟩ | ⟨hrun, heq, hev⟩
  · exact .tickStopped hrun
  · exact .tickCounted hrun hne
  · exact .tickMatched hrun heq hev

/-- Every action that completes is one of `AgentStep`'s cases. -/
theorem agentStep_of_perform {a : Action} {u t : State} (h : perform a u = .next t) : AgentStep u a t := by
  cases a with
  | write addr bytes =>
    rcases hostWrite_next_cases _ _ _ _ h with ⟨rfl, i, hd, he⟩ | ⟨rfl, hlen, -, rfl⟩
    · exact agentStep_of_exec_word hd he
    · exact .statusWritten hlen
  | read addr size =>
    obtain ⟨⟨rfl, rfl⟩, he⟩ := hostRead_next_cases _ _ _ _ h
    obtain ⟨-, ht⟩ := (underConfig_next u t (.ok (u.giveHost u.status))).1 he
    cases ht
    exact .statusRead
  | gpio reg port bit v =>
    obtain ⟨hport, -, hwrite⟩ := hostGpioWrite_next_cases _ _ _ _ _ _ h
    exact .gpioWritten hport hwrite
  | tick => exact agentStep_of_exec_tick h
  | reset =>
    obtain ⟨-, ht⟩ := (underConfig_next u t (.ok u.afterReset)).1 h
    cases ht
    exact .reset

theorem agentStep_of_step {s t : State} (h : step s = .next t) : AgentStep s.taken s.nextAction t :=
  agentStep_of_perform (step_eq_perform s ▸ h)

/-- A GPIO write changes one table of registers and no table's length (10_state.md R36). -/
theorem writeGpioBit_agreeOffPins {reg : GpioReg} {port : Nat} {b : Pin} {v : Bool} {s t : State}
    (h : s.writeGpioBit reg port b v = .ok t) : s.AgreeOffPins t := by
  cases reg with
  | dir =>
    obtain ⟨-, rfl⟩ := (writeGpioBit_dir_ok ..).1 h
    exact ⟨rfl, List.length_modify .., rfl⟩
  | out =>
    obtain ⟨-, rfl⟩ := (writeGpioBit_out_ok ..).1 h
    exact ⟨rfl, rfl, List.length_modify ..⟩

/-- An event leaves the registers' number as it is. -/
@[simp] theorem eventOut_length (s : State) (sl : Slot) : (eventOut s sl).length = s.out.length := by
  unfold eventOut
  split <;> simp

/-- A channel below the table's end has a successor count: no wrap in 8 bits (10_state.md R23, 00_scope.md R7). -/
theorem initCount_succ_toNat {s : State} (hcfg : s.cfg.WellFormed) (hch : s.initCount.toNat < s.cfg.nCh) :
    (s.initCount + 1).toNat = s.initCount.toNat + 1 := by
  obtain ⟨⟨-, hnCh⟩, -⟩ := hcfg
  rw [BitVec.toNat_add_of_not_uaddOverflow]
  · rfl
  · simp [BitVec.uaddOverflow]; omega

/-! ### The configuration and the flags -/

/-- No agent's step writes the configuration (10_state.md R13). -/
theorem AgentStep.cfg_eq {u t : State} {a : Action} (h : AgentStep u a t) : t.cfg = u.cfg := by
  cases h with
  | rejected e => exact State.setFlag_cfg e u
  | initAccepted _ _ _ haccept =>
    obtain ⟨-, rfl⟩ := (acceptInit_ok ..).1 haccept
    rfl
  | angleStored _ _ _ hset =>
    obtain ⟨-, rfl⟩ := (setAngle_ok ..).1 hset
    rfl
  | gpioWritten _ hwrite =>
    obtain ⟨ht, -, -⟩ := writeGpioBit_agreeOffPins hwrite
    rw [ht]
  | tickMatched _ _ hevent =>
    obtain ⟨sl, -, -, -, rfl⟩ := (event_ok ..).1 hevent
    rfl
  | angleIgnored | statusWritten | statusRead | tickStopped | tickCounted | reset => rfl

/-- Settles O60: of an agent's steps, none writes it, and taking an action off the list does not. -/
theorem nothingWritesTheConfiguration : Obligations.NothingWritesTheConfiguration :=
  fun _ _ h => (agentStep_of_step h).cfg_eq

/-- No agent's step but reset clears a flag (10_state.md R34). -/
theorem AgentStep.flag_sticks {u t : State} {a : Action} (h : AgentStep u a t) (ha : a ≠ .reset) (e : ErrFlag)
    (he : u.flag e = true) : t.flag e = true := by
  cases h with
  | rejected d => simp [he]
  | initAccepted _ _ _ haccept =>
    obtain ⟨-, rfl⟩ := (acceptInit_ok ..).1 haccept
    exact he
  | angleStored _ _ _ hset =>
    obtain ⟨-, rfl⟩ := (setAngle_ok ..).1 hset
    exact he
  | gpioWritten _ hwrite =>
    obtain ⟨ht, -, -⟩ := writeGpioBit_agreeOffPins hwrite
    rw [ht]
    exact he
  | tickMatched _ _ hevent =>
    obtain ⟨sl, -, -, -, rfl⟩ := (event_ok ..).1 hevent
    exact he
  | angleIgnored | statusWritten | statusRead | tickStopped | tickCounted => exact he
  | reset => exact absurd rfl ha

/-- Settles O18: a rejection sets a flag, and every other action but reset leaves them all. -/
theorem flagsStickUntilReset : Obligations.FlagsStickUntilReset :=
  fun _ _ e hreset h he => (agentStep_of_step h).flag_sticks (nextAction_ne_reset hreset) e he

/-! ### RUN, INIT_COUNT and the slots -/

/-- RUN stays 1, and INIT_COUNT moves only in an accepted INIT of channel INIT_COUNT (10_state.md R24, R31). -/
theorem AgentStep.run_initCount {u t : State} {a : Action} (h : AgentStep u a t) (ha : a ≠ .reset)
    (hcfg : u.cfg.WellFormed) :
    (u.run = true → t.run = true) ∧
    (t.initCount = u.initCount ∨
      (t.initCount.toNat = u.initCount.toNat + 1 ∧
        ∃ bytes pin addr, a = .write u.cfg.blockBase bytes ∧
          decodeBytes bytes = .ok (.init u.initCount pin addr))) := by
  cases h with
  | rejected e => simp
  | initAccepted hdecode hch _ haccept =>
    obtain ⟨-, rfl⟩ := (acceptInit_ok ..).1 haccept
    exact ⟨fun _ => rfl, .inr ⟨initCount_succ_toNat hcfg hch, _, _, _, rfl, hdecode⟩⟩
  | angleStored _ _ _ hset =>
    obtain ⟨-, rfl⟩ := (setAngle_ok ..).1 hset
    exact ⟨id, .inl rfl⟩
  | gpioWritten _ hwrite =>
    obtain ⟨ht, -, -⟩ := writeGpioBit_agreeOffPins hwrite
    rw [ht]
    exact ⟨id, .inl rfl⟩
  | tickMatched _ _ hevent =>
    obtain ⟨sl, -, -, -, rfl⟩ := (event_ok ..).1 hevent
    exact ⟨id, .inl rfl⟩
  | angleIgnored | statusWritten | statusRead | tickStopped | tickCounted => exact ⟨id, .inl rfl⟩
  | reset => exact absurd rfl ha

/-- Settles O56: of an agent's steps, only an accepted INIT counts, and only reset stops the timer. -/
theorem runAndCountNeverFall : Obligations.RunAndCountNeverFall := by
  intro s t hinv hreset h
  obtain ⟨hrun, hcount⟩ := (agentStep_of_step h).run_initCount (nextAction_ne_reset hreset) hinv.config
  refine ⟨hrun, hcount.imp_right ?_⟩
  rintro ⟨hsucc, bytes, pin, addr, ha, hdecode⟩
  exact ⟨hsucc, bytes, _, pin, addr, pending_of_nextAction_write ha, hdecode⟩

/-- A field that a slot's update keeps reads as before in the whole table. -/
theorem slots_modify_map_of_keeps {α : Type} (slots : List Slot) (ch c : Nat) (f : Slot → Slot) (field : Slot → α)
    (hkeeps : ∀ sl, field (f sl) = field sl) : ((slots.modify ch f)[c]?).map field = (slots[c]?).map field := by
  rw [slots_modify_getElem?]
  split
  · rw [Option.map_map, show field ∘ f = field from funext hkeeps]
  · rfl

/-- An initialized slot keeps its pin and port, and only a SETANG of the channel writes an angle
(10_state.md R20, R22). -/
theorem AgentStep.slot_kept {u t : State} {a : Action} (h : AgentStep u a t) (ha : a ≠ .reset) (c : Nat) :
    (c < u.initCount.toNat → (t.slot? c).map Slot.pin = (u.slot? c).map Slot.pin ∧
      (t.slot? c).map Slot.port = (u.slot? c).map Slot.port) ∧
    ((t.slot? c).map Slot.angle ≠ (u.slot? c).map Slot.angle →
      ∃ bytes ch angle, a = .write u.cfg.blockBase bytes ∧ decodeBytes bytes = .ok (.setang ch angle) ∧
        ch.toNat = c) := by
  cases h with
  | initAccepted _ _ _ haccept =>
    obtain ⟨-, rfl⟩ := (acceptInit_ok ..).1 haccept
    refine ⟨fun hc => ?_, fun hne => (hne (slots_modify_map_of_keeps _ _ c _ Slot.angle fun _ => rfl)).elim⟩
    simp [State.slot?, slots_modify_getElem?, hc.ne]
  | angleStored hdecode _ _ hset =>
    obtain ⟨-, rfl⟩ := (setAngle_ok ..).1 hset
    refine ⟨fun _ => ⟨slots_modify_map_of_keeps _ _ c _ Slot.pin fun _ => rfl,
      slots_modify_map_of_keeps _ _ c _ Slot.port fun _ => rfl⟩, fun hne => ⟨_, _, _, rfl, hdecode, ?_⟩⟩
    by_contra hch
    simp [State.slot?, slots_modify_getElem?, Ne.symm hch] at hne
  | rejected e => simp [State.slot?]
  | gpioWritten _ hwrite =>
    obtain ⟨ht, -, -⟩ := writeGpioBit_agreeOffPins hwrite
    rw [ht]
    simp [State.slot?]
  | tickMatched _ _ hevent =>
    obtain ⟨sl, -, -, -, rfl⟩ := (event_ok ..).1 hevent
    simp [State.slot?]
  | angleIgnored | statusWritten | statusRead | tickStopped | tickCounted => simp [State.slot?]
  | reset => exact absurd rfl ha

/-- Settles O57: INIT binds a slot that is not yet initialized and keeps its angle; SETANG keeps its pin and port. -/
theorem boundSlotsKeepTheirPin : Obligations.BoundSlotsKeepTheirPin := by
  intro s t c hreset h
  obtain ⟨hbound, hangle⟩ := (agentStep_of_step h).slot_kept (nextAction_ne_reset hreset) c
  refine ⟨hbound, fun hne => ?_⟩
  obtain ⟨bytes, ch, angle, ha, hdecode, hch⟩ := hangle hne
  exact ⟨bytes, _, ch, angle, pending_of_nextAction_write ha, hdecode, hch⟩

end Sys2Proof.Machine

/-!
PROOFS. The invariant of 10_state.md R39 and the status word of R33: reset establishes the invariant, each operation
that writes one of its fields keeps it, and the remaining ones write no field it speaks of.
-/

namespace Sys2Proof.Machine

/-! ### The fields of STATUS -/

/-- A bit of a word read off its number. -/
theorem getLsbD_eq_of_div_mod (w : Word) (i : Nat) (b : Bool) (h : w.toNat / 2 ^ i % 2 = b.toNat) :
    w.getLsbD i = b := by
  rw [BitVec.getLsbD, Nat.testBit_eq_decide_div_mod_eq, h]
  cases b <;> rfl

/-- A field of a word read off its number. -/
theorem extractLsb'_eq_of_div_mod (w : Word) (i n : Nat) (x : BitVec n) (h : w.toNat / 2 ^ i % 2 ^ n = x.toNat) :
    w.extractLsb' i n = x :=
  BitVec.eq_of_toNat_eq (by rw [BitVec.extractLsb'_toNat, Nat.shiftRight_eq_div_pow, h])

/-- STATUS in binary: each quotient by a power of two, down to the bit or field at its place (10_state.md R33). -/
theorem status_div_mod (s : State) :
    (s.status.toNat / 2 ^ 0 % 2 = s.errOp.toNat ∧ s.status.toNat / 2 ^ 1 % 2 = s.errCh.toNat ∧
      s.status.toNat / 2 ^ 2 % 2 = s.errSeq.toNat ∧ s.status.toNat / 2 ^ 3 % 2 = s.errAddr.toNat ∧
      s.status.toNat / 2 ^ 4 % 2 = s.errUninit.toNat) ∧
    s.status.toNat / 2 ^ 5 % 2 ^ 2 = 0 ∧ s.status.toNat / 2 ^ 7 % 2 = s.run.toNat ∧
    s.status.toNat / 2 ^ 8 % 2 ^ 8 = s.initCount.toNat ∧ s.status.toNat / 2 ^ 16 % 2 ^ 8 = s.activeCh.toNat ∧
    s.status.toNat / 2 ^ 24 % 2 = s.phase.bit.toNat ∧ s.status.toNat / 2 ^ 25 % 2 ^ 7 = 0 := by
  have hop := s.errOp.toNat_le
  have hch := s.errCh.toNat_le
  have hseq := s.errSeq.toNat_le
  have haddr := s.errAddr.toNat_le
  have huninit := s.errUninit.toNat_le
  have hrun := s.run.toNat_le
  have hcount := s.initCount.isLt
  have hactive := s.activeCh.isLt
  have hphase := s.phase.bit.toNat_le
  rw [status_toNat]
  omega

@[simp] theorem Phase.bit_eq_true (p : Phase) : p.bit = true ↔ p = .high := by
  cases p <;> simp [Phase.bit]

/-- Settles O20: each bit and field is read off STATUS's number. -/
theorem statusWordLayout : Obligations.StatusWordLayout := by
  intro s
  obtain ⟨⟨hop, hch, hseq, haddr, huninit⟩, hlow, hrun, hcount, hactive, hphase, hhigh⟩ := status_div_mod s
  refine ⟨getLsbD_eq_of_div_mod _ _ _ hop, getLsbD_eq_of_div_mod _ _ _ hch, getLsbD_eq_of_div_mod _ _ _ hseq,
    getLsbD_eq_of_div_mod _ _ _ haddr, getLsbD_eq_of_div_mod _ _ _ huninit, extractLsb'_eq_of_div_mod _ _ _ _ hlow,
    getLsbD_eq_of_div_mod _ _ _ hrun, extractLsb'_eq_of_div_mod _ _ _ _ hcount,
    extractLsb'_eq_of_div_mod _ _ _ _ hactive, ?_, extractLsb'_eq_of_div_mod _ _ _ _ hhigh⟩
  rw [getLsbD_eq_of_div_mod _ _ _ hphase, Phase.bit_eq_true]

/-! ### Reset -/

/-- ANGLE_RESET is stored exactly in the slot's 8 bits (00_scope.md R7). -/
theorem angleReset_toNat {c : Config} (hc : c.WellFormed) : (BitVec.ofNat 8 c.angleReset).toNat = c.angleReset := by
  obtain ⟨-, -, -, -, -, -, hangle⟩ := hc
  simp only [BitVec.toNat_ofNat]
  omega

theorem resetWith_status (c : Config) : (State.resetWith c).status = 0 :=
  BitVec.eq_of_toNat_eq (by simp [status_toNat, Phase.bit])

/-- Settles O49: the values of `State.resetWith`, read back, and the status word they give. -/
theorem resetValues : Obligations.ResetValues := by
  intro c hc
  have hslot : ∀ ch, ch < c.nCh → (State.resetWith c).slot? ch = some ⟨0, 0, BitVec.ofNat 8 c.angleReset⟩ :=
    fun ch hch => by simp [State.slot?, hch]
  have hflag : ∀ e, (State.resetWith c).flag e = false := fun e => by cases e <;> rfl
  exact ⟨fun ch hch => ⟨_, hslot ch hch, rfl, rfl, angleReset_toNat hc⟩, List.length_replicate, rfl, rfl, rfl, rfl, rfl,
    rfl, hflag, List.length_replicate, fun r hr => List.eq_of_mem_replicate hr, List.length_replicate,
    fun r hr => List.eq_of_mem_replicate hr, resetWith_status c⟩

/-- Settles O50: no channel is initialized and the timer is stopped at 0, so R7 gives all that is left. -/
theorem resetSatisfiesTheInvariant : Obligations.ResetSatisfiesTheInvariant := by
  intro c hc
  exact {
    config := hc
    shape := ⟨List.length_replicate, List.length_replicate, List.length_replicate⟩
    angles := fun sl hsl => by
      have ⟨_, _, _, _, _, _, hangle⟩ := hc
      rw [List.eq_of_mem_replicate hsl, angleReset_toNat hc]
      exact hangle
    count := Nat.zero_le _
    active := Nat.zero_le _
    running := by simp
    compareSet := nofun
    stopped := fun _ => ⟨rfl, rfl, rfl, rfl⟩
    ports := fun c hlt => absurd hlt (Nat.not_lt_zero c)
    widths := ⟨Nat.two_pow_pos _, Nat.two_pow_pos _⟩ }

/-! ### The operations keep the invariant -/

/-- The invariant speaks of no flag, no pin and none of the model's own fields but the configuration: a state that
differs in those alone, with as many GPIO registers, meets it too. -/
theorem State.Inv.of_same_scheduler {s t : State} (hs : s.Inv)
    (ht : t = { s with pending := t.pending, lastRead := t.lastRead, errOp := t.errOp, errCh := t.errCh,
                       errSeq := t.errSeq, errAddr := t.errAddr, errUninit := t.errUninit, dir := t.dir, out := t.out })
    (hdir : t.dir.length = s.dir.length) (hout : t.out.length = s.out.length) : t.Inv := by
  obtain ⟨hslots, hsdir, hsout⟩ := hs.shape
  have hshape : t.Shape := by
    rw [State.Shape, hdir, hout, ht]
    exact ⟨hslots, hsdir, hsout⟩
  rw [ht] at hshape ⊢
  exact ⟨hs.config, hshape, hs.angles, hs.count, hs.active, hs.running, hs.compareSet, hs.stopped, hs.ports, hs.widths⟩

theorem taken_inv {s : State} (hs : s.Inv) : s.taken.Inv := hs.of_same_scheduler rfl rfl rfl

theorem setFlag_inv {s : State} (hs : s.Inv) (e : ErrFlag) : (s.setFlag e).Inv :=
  hs.of_same_scheduler (by cases e <;> rfl) (by simp) (by simp)

theorem giveHost_inv {s : State} (hs : s.Inv) (w : Word) : (s.giveHost w).Inv :=
  hs.of_same_scheduler rfl rfl rfl

theorem writeGpioBit_inv {s t : State} (hs : s.Inv) {reg : GpioReg} {port : Nat} {b : Pin} {v : Bool}
    (h : s.writeGpioBit reg port b v = .ok t) : t.Inv := by
  obtain ⟨ht, hdir, hout⟩ := writeGpioBit_agreeOffPins h
  exact hs.of_same_scheduler (by rw [ht]) hdir hout

theorem afterReset_inv {s : State} (hs : s.Inv) : s.afterReset.Inv :=
  (resetSatisfiesTheInvariant s.cfg hs.config).of_same_scheduler rfl rfl rfl

/-- A running timer may hold any count of W bits (10_state.md R30, R39). -/
theorem setCounter_inv {s : State} (hs : s.Inv) (hrun : s.run = true) {n : Nat} (hn : n < s.cfg.span) :
    (s.setCounter n).Inv :=
  { hs with
    stopped := fun hstop => absurd (hrun.symm.trans hstop) nofun
    widths := ⟨hn, hs.widths.2⟩ }

/-- A slot of the table after one slot is replaced is an old slot or the replacement of one. -/
theorem mem_slots_modify {slots : List Slot} {ch : Nat} {f : Slot → Slot} {sl : Slot}
    (h : sl ∈ slots.modify ch f) : sl ∈ slots ∨ ∃ old ∈ slots, f old = sl := by
  obtain ⟨c, hc⟩ := List.mem_iff_getElem?.1 h
  rw [slots_modify_getElem?] at hc
  split at hc
  · obtain ⟨old, hold, rfl⟩ := Option.map_eq_some_iff.1 hc
    exact .inr ⟨old, List.mem_of_getElem? hold, rfl⟩
  · exact .inl (List.mem_of_getElem? hc)

/-- Storing a valid angle keeps R39's points 1 and 7; it writes nothing else (40_host_commands.md R79). -/
theorem setAngle_inv {s t : State} (hs : s.Inv) {ch : Nat} {a : Byte} (ha : a.toNat ≤ 180)
    (h : s.setAngle ch a = .ok t) : t.Inv := by
  obtain ⟨-, rfl⟩ := (setAngle_ok ..).1 h
  obtain ⟨hslots, hdir, hout⟩ := hs.shape
  exact {
    hs with
    shape := ⟨by simpa using hslots, hdir, hout⟩
    angles := fun sl hsl => by
      rcases mem_slots_modify hsl with hold | ⟨old, -, rfl⟩
      · exact hs.angles sl hold
      · exact ha
    ports := fun c hc sl hsl => by
      have hport := slots_modify_map_of_keeps s.slots ch c (fun sl => { sl with angle := a }) Slot.port fun _ => rfl
      rw [show (s.slots.modify ch fun sl => { sl with angle := a })[c]? = some sl from hsl, Option.map_some] at hport
      obtain ⟨old, hold, hkept⟩ := Option.map_eq_some_iff.1 hport.symm
      exact hkept ▸ hs.ports c hc old hold }

/-- A found port's number is stored exactly in the slot's 3 bits (00_scope.md R7, 43_gpio_toggle.md R120). -/
theorem lookupPort_toNat {c : Config} {addr : RegAddr} {port : Nat} (hc : c.WellFormed)
    (h : lookupPort c addr = some port) : (BitVec.ofNat 3 port).toNat = port := by
  have hlt := lookupPort_lt h
  obtain ⟨-, ⟨-, hports⟩, -⟩ := hc
  simp only [BitVec.toNat_ofNat]
  omega

/-- An accepted INIT binds the slot that becomes initialized to a port that exists, and starts the timer with a valid
COMPARE (40_host_commands.md R78, R85). -/
theorem acceptInit_inv {s t : State} (hs : s.Inv) {pin : Pin} {addr : RegAddr} {port : Nat}
    (hch : s.initCount.toNat < s.cfg.nCh) (hport : lookupPort s.cfg addr = some port)
    (h : acceptInit s.initCount pin port s = .ok t) : t.Inv := by
  obtain ⟨⟨-, -, hspan⟩, rfl⟩ := (acceptInit_ok ..).1 h
  have hsucc := initCount_succ_toNat hs.config hch
  obtain ⟨hslots, hdir, hout⟩ := hs.shape
  obtain ⟨-, -, -, -, -, ⟨hcompare, -⟩, -⟩ := hs.config
  exact {
    config := hs.config
    shape := ⟨by simpa using hslots, by simpa using hdir, hout⟩
    angles := fun sl hsl => by
      rcases mem_slots_modify hsl with hold | ⟨old, hold, rfl⟩
      · exact hs.angles sl hold
      · exact hs.angles old hold
    count := hsucc ▸ hch
    active := hs.active
    running := ⟨fun _ => hsucc ▸ Nat.le_add_left .., fun _ => rfl⟩
    compareSet := fun _ => hcompare
    stopped := nofun
    ports := fun c hc sl hsl => by
      replace hsl : (s.slots.modify s.initCount.toNat _)[c]? = some sl := hsl
      rw [slots_modify_getElem?] at hsl
      split at hsl
      case isTrue =>
        obtain ⟨old, -, rfl⟩ := Option.map_eq_some_iff.1 hsl
        exact (lookupPort_toNat hs.config hport).trans_lt (lookupPort_lt hport)
      case isFalse hne =>
        have hlt : c < s.initCount.toNat := by
          replace hc : c < (s.initCount + 1).toNat := hc
          omega
        exact hs.ports c hlt sl hsl
    widths := ⟨hs.widths.1, hspan⟩ }

/-- The round robin stays in the table (41_timer_event.md R96). -/
theorem nextChannel_le {c : Config} (hc : c.WellFormed) (ch : Chan) : (nextChannel c ch).toNat ≤ c.nCh - 1 := by
  obtain ⟨⟨hpos, -⟩, -⟩ := hc
  have hmod := Nat.mod_lt (ch.toNat + 1) hpos
  have hle : (nextChannel c ch).toNat ≤ (ch.toNat + 1) % c.nCh := Nat.mod_le ..
  omega

/-- Every duration is at least BASE, so at least 1 (42_duration_mapper.md R116, 00_scope.md R7). -/
theorem one_le_duration {c : Config} (hc : c.WellFormed) (angle : Nat) : 1 ≤ duration c angle := by
  obtain ⟨-, -, -, ⟨-, hbase⟩, -⟩ := hc
  exact hbase.trans (Nat.le_add_left ..)

/-- An event of a running timer keeps the active channel in the table and COMPARE in its range
(41_timer_event.md R95). -/
theorem event_inv {s t : State} (hs : s.Inv) (hrun : s.run = true) (h : event s = .ok t) : t.Inv := by
  obtain ⟨sl, -, -, hspan, rfl⟩ := (event_ok ..).1 h
  obtain ⟨hslots, hdir, hout⟩ := hs.shape
  exact {
    hs with
    shape := ⟨hslots, hdir, by simpa using hout⟩
    active := by
      dsimp only
      split
      · exact hs.active
      · exact nextChannel_le hs.config _
    compareSet := fun _ => one_le_duration hs.config _
    stopped := fun hstop => absurd (hrun.symm.trans hstop) nofun
    widths := ⟨hs.widths.1, hspan⟩ }

/-! ### Every step keeps the invariant -/

theorem AgentStep.inv {u t : State} {a : Action} (h : AgentStep u a t) (hu : u.Inv) : t.Inv := by
  cases h with
  | rejected e => exact setFlag_inv hu e
  | initAccepted _ hch hport haccept => exact acceptInit_inv hu hch hport haccept
  | angleStored _ _ hangle hset => exact setAngle_inv hu ((storedAngle_toNat _ hangle).trans_le hangle) hset
  | angleIgnored | statusWritten | tickStopped => exact hu
  | statusRead => exact giveHost_inv hu _
  | gpioWritten _ hwrite => exact writeGpioBit_inv hu hwrite
  | tickCounted hrun => exact setCounter_inv hu hrun (Nat.mod_lt _ (Nat.two_pow_pos _))
  | tickMatched hrun _ hevent => exact event_inv (setCounter_inv hu hrun (Nat.two_pow_pos _)) hrun hevent
  | reset => exact afterReset_inv hu

/-- Settles O51: taking an action off the list keeps the invariant, and so does each way the action can end. -/
theorem stepKeepsTheInvariant : Obligations.StepKeepsTheInvariant :=
  fun _ _ hs h => (agentStep_of_step h).inv (taken_inv hs)

end Sys2Proof.Machine

/-!
PROOFS. The host window (20_memory.md): the byte lanes that carry a command word, the accesses that have no meaning, and
what writing a command a second time does.
-/

namespace Sys2Proof.Machine

/-! ### Byte lanes -/

/-- The four lanes of a word decode as the word (20_memory.md R41). -/
theorem decodeBytes_bytesOfWord (w : Word) : decodeBytes (bytesOfWord w) = .ok (decode w) := by
  simp only [bytesOfWord, decodeBytes, wordOfBytes_lanes]

/-- Lane i of a word is bits 8i+7..8i (20_memory.md R41). -/
theorem bytesOfWord_getElem? (w : Word) {i : Nat} (hi : i < 4) :
    (bytesOfWord w)[i]? = some (w.extractLsb' (8 * i) 8) := by
  interval_cases i <;> rfl

/-- The SPS decodes one length (30_encoding.md R58). -/
theorem decodeBytes_of_length_ne {bytes : List Byte} (h : bytes.length ≠ 4) :
    decodeBytes bytes = .error (.notFourBytes bytes.length) := by
  unfold decodeBytes
  split
  · exact absurd rfl h
  · rfl

/-- Settles O6: the lanes are read off the definition of `bytesOfWord`, and put together again they are the word. -/
theorem byteLanesCarryTheWord : Obligations.ByteLanesCarryTheWord :=
  ⟨decodeBytes_bytesOfWord, fun w _ hi => bytesOfWord_getElem? w hi, fun _ h => ⟨_, decodeBytes_of_length_ne h⟩⟩

/-! ### A command written again -/

/-- SETANG of a channel that the configuration lacks (60_exceptions.md R132). -/
theorem setangCommand_of_nCh_le {ch : Chan} {s : State} (angle : BitVec 16) (hch : s.cfg.nCh ≤ ch.toNat) :
    setangCommand ch angle s = .ok (s.setFlag .ch) := by
  simp [setangCommand, hch]

/-- SETANG of a channel that is not initialized (60_exceptions.md R132). -/
theorem setangCommand_of_uninit {ch : Chan} {s : State} (angle : BitVec 16) (hch : ch.toNat < s.cfg.nCh)
    (huninit : s.initCount.toNat ≤ ch.toNat) : setangCommand ch angle s = .ok (s.setFlag .uninit) := by
  simp [setangCommand, hch.not_ge, huninit]

/-- SETANG that stores its angle (40_host_commands.md R79). -/
theorem setangCommand_of_valid {ch : Chan} {angle : BitVec 16} {s : State} (hch : ch.toNat < s.cfg.nCh)
    (hinit : ch.toNat < s.initCount.toNat) (hangle : angle.toNat ≤ 180) :
    setangCommand ch angle s = s.setAngle ch.toNat (storedAngle angle) := by
  simp [setangCommand, hch.not_ge, hinit.not_ge, angleValid, hangle]

/-- INIT out of turn (60_exceptions.md R132). -/
theorem initCommand_of_ne_initCount {ch : Chan} {s : State} (pin : Pin) (addr : RegAddr) (hch : ch.toNat < s.cfg.nCh)
    (hseq : ch ≠ s.initCount) : initCommand ch pin addr s = .ok (s.setFlag .seq) := by
  simp [initCommand, hch.not_ge, hseq]

/-- Setting a flag twice sets it once (10_state.md R34). -/
theorem setFlag_setFlag (e : ErrFlag) (s : State) : (s.setFlag e).setFlag e = s.setFlag e :=
  State.setFlag_of_flag e _ (by simp)

/-- Storing an angle that is stored changes nothing (40_host_commands.md R79). -/
theorem setAngle_idempotent {ch : Nat} {a : Byte} {s t : State} (h : s.setAngle ch a = .ok t) :
    t.setAngle ch a = .ok t := by
  obtain ⟨hch, rfl⟩ := (setAngle_ok ..).1 h
  refine (setAngle_ok ..).2 ⟨by simpa using hch, ?_⟩
  simp only [List.modify_modify_eq, Function.comp_def]

/-- A SETANG written again changes nothing, whatever it did the first time (20_memory.md R49). -/
theorem setangCommand_idempotent {ch : Chan} {angle : BitVec 16} {s t : State} (h : setangCommand ch angle s = .ok t) :
    setangCommand ch angle t = .ok t := by
  rcases setangCommand_ok _ _ _ _ h with ⟨hch, rfl⟩ | ⟨hch, huninit, rfl⟩ | ⟨hch, hinit, hangle, hset⟩ |
    ⟨-, -, -, rfl⟩
  · rw [setangCommand_of_nCh_le angle (by simpa using hch), setFlag_setFlag]
  · rw [setangCommand_of_uninit angle (by simpa using hch) (by simpa using huninit), setFlag_setFlag]
  · have haccepts : setangCommand ch angle t = t.setAngle ch.toNat (storedAngle angle) := by
      obtain ⟨-, rfl⟩ := (setAngle_ok ..).1 hset
      exact setangCommand_of_valid hch hinit hangle
    exact haccepts.trans (setAngle_idempotent hset)
  · exact h

/-- An INIT that counts is one of channel INIT_COUNT (10_state.md R24). -/
theorem initCommand_counted {ch : Chan} {pin : Pin} {addr : RegAddr} {s t : State}
    (h : initCommand ch pin addr s = .ok t) (hcount : t.initCount ≠ s.initCount) :
    ch.toNat < s.cfg.nCh ∧ ch = s.initCount := by
  rcases initCommand_ok _ _ _ _ _ h with ⟨-, rfl⟩ | ⟨-, -, rfl⟩ | ⟨-, -, -, rfl⟩ | ⟨hch, hseq, -⟩
  · exact absurd (State.setFlag_initCount ..) hcount
  · exact absurd (State.setFlag_initCount ..) hcount
  · exact absurd (State.setFlag_initCount ..) hcount
  · exact ⟨hch, hseq⟩

/-- No instruction writes the configuration (10_state.md R13). -/
theorem exec_cfg_eq {i : Instr} {s t : State} (h : exec i s = .next t) : t.cfg = s.cfg := by
  obtain ⟨-, ⟨-, e, rfl⟩ | ⟨_, _, _, _, -, -, -, -, haccept⟩ | ⟨_, _, -, -, -, ⟨-, hset⟩ | ⟨-, rfl⟩⟩ | ⟨-, rfl⟩ |
    ⟨rfl, -⟩ | ⟨-, hevent⟩⟩ := exec_next_cases i s t h
  · exact State.setFlag_cfg e s
  · obtain ⟨-, rfl⟩ := (acceptInit_ok ..).1 haccept
    rfl
  · obtain ⟨-, rfl⟩ := (setAngle_ok ..).1 hset
    rfl
  · rfl
  · rfl
  · exact (agentStep_of_exec_tick h).cfg_eq
  · obtain ⟨-, -, -, -, rfl⟩ := (event_ok ..).1 hevent
    rfl

/-- Settles O23: the second SETANG takes the branch of the first, with nothing left to change; the second INIT finds
INIT_COUNT past its channel. -/
theorem repeatedCommands : Obligations.RepeatedCommands := by
  constructor
  · intro s t ch angle _ h
    obtain ⟨hwf, hcmd⟩ := (underConfig_next ..).1 h
    exact (underConfig_next ..).2 ⟨exec_cfg_eq h ▸ hwf, setangCommand_idempotent hcmd⟩
  · intro s t ch pin addr h hcount
    obtain ⟨hwf, hcmd⟩ := (underConfig_next ..).1 h
    obtain ⟨hch, rfl⟩ := initCommand_counted hcmd hcount
    have hcfg : t.cfg = s.cfg := exec_cfg_eq h
    exact (underConfig_next ..).2 ⟨hcfg ▸ hwf, initCommand_of_ne_initCount pin addr (hcfg ▸ hch) hcount.symm⟩

/-! ### Accesses without a meaning -/

theorem step_of_pending_cons {s : State} {a : Action} {rest : List Action} (h : s.pending = a :: rest) :
    step s = perform a (s.withPending rest) := by
  rw [step_eq_perform, State.nextAction, State.taken, h]
  rfl

/-- A write of another length than four bytes, or at neither register, is refused (20_memory.md R45). -/
theorem hostWrite_refused {addr : Nat} {bytes : List Byte} {s : State}
    (h : bytes.length ≠ 4 ∨ (addr ≠ s.cfg.blockBase ∧ addr ≠ s.cfg.blockBase + 4)) :
    hostWrite addr bytes s = .refused .undefinedHostAccess := by
  unfold hostWrite cmdAddr statusAddr
  rcases h with hlen | ⟨hcmd, hstatus⟩
  · simp [decodeBytes_of_length_ne hlen, hlen]
  · simp [hcmd, hstatus]

/-- Any read but that of four bytes at STATUS is refused (20_memory.md R45). -/
theorem hostRead_refused {addr size : Nat} {s : State} (h : size ≠ 4 ∨ addr ≠ s.cfg.blockBase + 4) :
    hostRead addr size s = .refused .undefinedHostAccess :=
  if_neg fun ⟨haddr, hsize⟩ => h.elim (· hsize) (· haddr)

/-- Four bytes written to STATUS change nothing (40_host_commands.md R83). -/
theorem hostWrite_status {bytes : List Byte} {s : State} (hcfg : s.cfg.WellFormed) (hlen : bytes.length = 4) :
    hostWrite (s.cfg.blockBase + 4) bytes s = .next s := by
  have haccess : hostWrite (s.cfg.blockBase + 4) bytes s = hostWriteStatus s := by
    simp [hostWrite, cmdAddr, statusAddr, hlen]
  rw [haccess]
  exact (underConfig_next ..).2 ⟨hcfg, rfl⟩

/-- Settles O22: the window's two accesses and the no-op write are the only ones that reach a meaning. -/
theorem otherHostAccessesAreRefused : Obligations.OtherHostAccessesAreRefused := by
  refine ⟨fun s addr bytes rest hp h => ?_, fun s addr size rest hp h => ?_, fun s bytes rest hcfg hlen hp => ?_⟩
  · rw [step_of_pending_cons hp]
    exact hostWrite_refused h
  · rw [step_of_pending_cons hp]
    exact hostRead_refused h
  · rw [step_of_pending_cons hp]
    exact hostWrite_status (s := s.withPending rest) hcfg hlen

end Sys2Proof.Machine

/-!
PROOFS. The encoding (30_encoding.md). A word is the concatenation of its fields, so the decoder, which reads fields, and
the encoder, which concatenates them, undo each other format by format. The fourteen reserved opcodes share one relation.
-/

namespace Sys2Proof

/-! ### The fields of an encoded word (30_encoding.md R60 to R66) -/

section fields
variable (op rsv : BitVec 4) (rest : BitVec 28) (bit : BitVec 1) (ch : Chan) (pin : Pin) (addr angle : BitVec 16)

@[simp] theorem opField_encodeOpcode : opField (encodeOpcode op rest) = op := by
  apply BitVec.eq_of_toNat_eq
  rw [opField_toNat, encodeOpcode_toNat]
  omega

@[simp] theorem restField_encodeOpcode : restField (encodeOpcode op rest) = rest := by
  apply BitVec.eq_of_toNat_eq
  rw [restField_toNat, encodeOpcode_toNat]
  omega

@[simp] theorem opField_encodeFormatI : opField (encodeFormatI bit ch pin addr) = 1#4 := by
  apply BitVec.eq_of_toNat_eq
  rw [opField_toNat, encodeFormatI_toNat, BitVec.toNat_ofNat]
  omega

@[simp] theorem chField_encodeFormatI : chField (encodeFormatI bit ch pin addr) = ch := by
  apply BitVec.eq_of_toNat_eq
  rw [chField_toNat, encodeFormatI_toNat]
  omega

@[simp] theorem rsvBitI_encodeFormatI : rsvBitI (encodeFormatI bit ch pin addr) = decide (bit = 1#1) := by
  rw [rsvBitI_eq, encodeFormatI_toNat]
  exact decide_eq_decide.2 (by rw [← BitVec.toNat_inj, BitVec.toNat_ofNat]; omega)

@[simp] theorem pinField_encodeFormatI : pinField (encodeFormatI bit ch pin addr) = pin := by
  apply BitVec.eq_of_toNat_eq
  rw [pinField_toNat, encodeFormatI_toNat]
  omega

@[simp] theorem lowField_encodeFormatI : lowField (encodeFormatI bit ch pin addr) = addr := by
  apply BitVec.eq_of_toNat_eq
  rw [lowField_toNat, encodeFormatI_toNat]
  omega

@[simp] theorem opField_encodeFormatA : opField (encodeFormatA ch rsv angle) = 2#4 := by
  apply BitVec.eq_of_toNat_eq
  rw [opField_toNat, encodeFormatA_toNat, BitVec.toNat_ofNat]
  omega

@[simp] theorem chField_encodeFormatA : chField (encodeFormatA ch rsv angle) = ch := by
  apply BitVec.eq_of_toNat_eq
  rw [chField_toNat, encodeFormatA_toNat]
  omega

@[simp] theorem rsvFieldA_encodeFormatA : rsvFieldA (encodeFormatA ch rsv angle) = rsv := by
  apply BitVec.eq_of_toNat_eq
  rw [rsvFieldA_toNat, encodeFormatA_toNat]
  omega

@[simp] theorem lowField_encodeFormatA : lowField (encodeFormatA ch rsv angle) = angle := by
  apply BitVec.eq_of_toNat_eq
  rw [lowField_toNat, encodeFormatA_toNat]
  omega

end fields

/-! ### A word is its fields (30_encoding.md R60, R61) -/

theorem encodeOpcode_fields (w : Word) : encodeOpcode (opField w) (restField w) = w := by
  apply BitVec.eq_of_toNat_eq
  rw [encodeOpcode_toNat, opField_toNat, restField_toNat]
  omega

theorem rsvBitI_toNat (w : Word) : (rsvBitI w).toNat = w.toNat / 2 ^ 19 % 2 :=
  Nat.toNat_testBit w.toNat 19

theorem formatI_fields (w : Word) :
    opField w ++ chField w ++ BitVec.ofBool (rsvBitI w) ++ pinField w ++ lowField w = w := by
  apply BitVec.eq_of_toNat_eq
  rw [append_toNat, append_toNat, append_toNat, append_toNat, opField_toNat, chField_toNat, BitVec.toNat_ofBool,
    rsvBitI_toNat, pinField_toNat, lowField_toNat]
  omega

theorem formatA_fields (w : Word) : opField w ++ chField w ++ rsvFieldA w ++ lowField w = w := by
  apply BitVec.eq_of_toNat_eq
  rw [append_toNat, append_toNat, append_toNat, opField_toNat, chField_toNat, rsvFieldA_toNat, lowField_toNat]
  omega

theorem encodeFormatI_fields {w : Word} (hop : opField w = 1#4) :
    encodeFormatI (BitVec.ofBool (rsvBitI w)) (chField w) (pinField w) (lowField w) = w := by
  rw [encodeFormatI, ← hop, formatI_fields]

theorem encodeFormatA_fields {w : Word} (hop : opField w = 2#4) :
    encodeFormatA (chField w) (rsvFieldA w) (lowField w) = w := by
  rw [encodeFormatA, ← hop, formatA_fields]

/-! ### The opcode map (30_encoding.md R67) -/

/-- The row of the opcode map that a reserved opcode belongs to; INIT's and SETANG's opcodes have none. -/
inductive ReservedOpcode : BitVec 4 → (BitVec 28 → Instr) → Prop where
  | op0 : ReservedOpcode 0x0 .reservedOp0
  | op3 : ReservedOpcode 0x3 .reservedOp3
  | op4 : ReservedOpcode 0x4 .reservedOp4
  | op5 : ReservedOpcode 0x5 .reservedOp5
  | op6 : ReservedOpcode 0x6 .reservedOp6
  | op7 : ReservedOpcode 0x7 .reservedOp7
  | op8 : ReservedOpcode 0x8 .reservedOp8
  | op9 : ReservedOpcode 0x9 .reservedOp9
  | opA : ReservedOpcode 0xA .reservedOpA
  | opB : ReservedOpcode 0xB .reservedOpB
  | opC : ReservedOpcode 0xC .reservedOpC
  | opD : ReservedOpcode 0xD .reservedOpD
  | opE : ReservedOpcode 0xE .reservedOpE
  | opF : ReservedOpcode 0xF .reservedOpF

section reserved
variable {op : BitVec 4} {row : BitVec 28 → Instr} (h : ReservedOpcode op row)
include h

theorem ReservedOpcode.decode_eq {w : Word} (hop : opField w = op) : decode w = row (restField w) := by
  cases h <;> simp [decode, hop]

theorem ReservedOpcode.encode_eq (rest : BitVec 28) : encode (row rest) = some (encodeOpcode op rest) := by
  cases h <;> rfl

theorem ReservedOpcode.reserved (rest : BitVec 28) : (row rest).Reserved := by
  cases h <;> rfl

theorem ReservedOpcode.wellFormed (rest : BitVec 28) : (row rest).WellFormed := by
  cases h <;> rfl

theorem ReservedOpcode.decode_encodeOpcode (rest : BitVec 28) : decode (encodeOpcode op rest) = row rest := by
  rw [h.decode_eq (opField_encodeOpcode op rest), restField_encodeOpcode]

end reserved

/-- Every opcode other than INIT's and SETANG's is reserved (30_encoding.md R67). -/
theorem exists_reservedOpcode : ∀ op : BitVec 4, op ≠ 1#4 → op ≠ 2#4 → ∃ row, ReservedOpcode op row
  | ⟨0x0, _⟩, _, _ => ⟨_, .op0⟩
  | ⟨0x3, _⟩, _, _ => ⟨_, .op3⟩
  | ⟨0x4, _⟩, _, _ => ⟨_, .op4⟩
  | ⟨0x5, _⟩, _, _ => ⟨_, .op5⟩
  | ⟨0x6, _⟩, _, _ => ⟨_, .op6⟩
  | ⟨0x7, _⟩, _, _ => ⟨_, .op7⟩
  | ⟨0x8, _⟩, _, _ => ⟨_, .op8⟩
  | ⟨0x9, _⟩, _, _ => ⟨_, .op9⟩
  | ⟨0xA, _⟩, _, _ => ⟨_, .opA⟩
  | ⟨0xB, _⟩, _, _ => ⟨_, .opB⟩
  | ⟨0xC, _⟩, _, _ => ⟨_, .opC⟩
  | ⟨0xD, _⟩, _, _ => ⟨_, .opD⟩
  | ⟨0xE, _⟩, _, _ => ⟨_, .opE⟩
  | ⟨0xF, _⟩, _, _ => ⟨_, .opF⟩
  | ⟨0x1, _⟩, h, _ => absurd rfl h
  | ⟨0x2, _⟩, _, h => absurd rfl h
  | ⟨n + 16, hn⟩, _, _ => absurd hn (by omega)

/-- The three ways a word decodes: by its format, or as the row of its reserved opcode (30_encoding.md R67). -/
theorem opField_cases (w : Word) :
    opField w = 1#4 ∨ opField w = 2#4 ∨ ∃ row, ReservedOpcode (opField w) row := by
  by_cases hI : opField w = 1#4
  · exact .inl hI
  by_cases hA : opField w = 2#4
  · exact .inr (.inl hA)
  · exact .inr (.inr (exists_reservedOpcode _ hI hA))

/-! ### The two formats (30_encoding.md R68) -/

theorem decode_formatI {w : Word} (hop : opField w = 1#4) : decode w = decodeFormatI w := by
  simp [decode, hop]

theorem decode_formatA {w : Word} (hop : opField w = 2#4) : decode w = decodeFormatA w := by
  simp [decode, hop]

theorem decodeFormatI_of_clear {w : Word} (hbit : rsvBitI w = false) :
    decodeFormatI w = .init (chField w) (pinField w) (lowField w) := by
  simp [decodeFormatI, hbit]

theorem decodeFormatI_of_set {w : Word} (hbit : rsvBitI w = true) :
    decodeFormatI w = .reservedInitB19 (chField w) (pinField w) (lowField w) := by
  simp [decodeFormatI, hbit]

theorem decodeFormatA_of_clear {w : Word} (hrsv : rsvFieldA w = 0#4) :
    decodeFormatA w = .setang (chField w) (lowField w) := by
  simp [decodeFormatA, hrsv]

/-- Whichever row a set reserved bit names (log 10), the word is rejected and the row carries all its fields. -/
theorem decodeFormatA_of_set {w : Word} (hrsv : rsvFieldA w ≠ 0#4) :
    (decodeFormatA w).Reserved ∧ (decodeFormatA w).WellFormed ∧
      encode (decodeFormatA w) = some (encodeFormatA (chField w) (rsvFieldA w) (lowField w)) := by
  have hzero : ∀ r : BitVec 4, ¬ r.getLsbD 3 → ¬ r.getLsbD 2 → ¬ r.getLsbD 1 → ¬ r.getLsbD 0 → r = 0#4 := by
    decide
  unfold decodeFormatA
  split_ifs with h3 h2 h1 h0
  · exact ⟨rfl, h3, rfl⟩
  · exact ⟨rfl, by simp_all [Instr.WellFormed, Instr.isWellFormed], rfl⟩
  · exact ⟨rfl, by simp_all [Instr.WellFormed, Instr.isWellFormed], rfl⟩
  · exact ⟨rfl, by simp_all [Instr.WellFormed, Instr.isWellFormed], rfl⟩
  · exact absurd (hzero _ h3 h2 h1 h0) hrsv

/-! ### Decoding inverts encoding -/

theorem decode_encodeFormatI (bit : BitVec 1) (ch : Chan) (pin : Pin) (addr : RegAddr) :
    decode (encodeFormatI bit ch pin addr) =
      if bit = 1#1 then .reservedInitB19 ch pin addr else .init ch pin addr := by
  simp [decode_formatI, decodeFormatI]

/-- The highest set bit of the reserved nibble names the row (log 10). -/
theorem decode_encodeFormatA (ch : Chan) (rsv : BitVec 4) (angle : BitVec 16) :
    decode (encodeFormatA ch rsv angle) =
      if rsv.getLsbD 3 then .reservedSetangB19 ch rsv angle
      else if rsv.getLsbD 2 then .reservedSetangB18 ch rsv angle
      else if rsv.getLsbD 1 then .reservedSetangB17 ch rsv angle
      else if rsv.getLsbD 0 then .reservedSetangB16 ch rsv angle
      else .setang ch angle := by
  simp [decode_formatA, decodeFormatA]

/-- Settles O1, one row of the opcode map at a time. -/
theorem decodeInvertsEncode : Obligations.DecodeInvertsEncode := by
  intro i w hwf henc
  cases i with
  | rdstat | tick | event => cases henc
  | init ch pin addr => cases henc; exact decode_encodeFormatI 0 ch pin addr
  | reservedInitB19 ch pin addr => cases henc; exact decode_encodeFormatI 1 ch pin addr
  | setang ch angle => cases henc; exact decode_encodeFormatA ch 0 angle
  | reservedSetangB19 ch rsv angle | reservedSetangB18 ch rsv angle | reservedSetangB17 ch rsv angle
  | reservedSetangB16 ch rsv angle =>
    cases henc
    simp_all [decode_encodeFormatA, Instr.WellFormed, Instr.isWellFormed]
  | reservedOp0 rest | reservedOp3 rest | reservedOp4 rest | reservedOp5 rest | reservedOp6 rest | reservedOp7 rest
  | reservedOp8 rest | reservedOp9 rest | reservedOpA rest | reservedOpB rest | reservedOpC rest | reservedOpD rest
  | reservedOpE rest | reservedOpF rest =>
    cases henc
    exact ReservedOpcode.decode_encodeOpcode (by constructor) rest

/-! ### Encoding inverts decoding -/

theorem encode_decode_formatI {w : Word} (hop : opField w = 1#4) :
    encode (decode w) = some w ∧ (decode w).WellFormed := by
  have hword := encodeFormatI_fields hop
  rw [decode_formatI hop]
  cases hbit : rsvBitI w <;> rw [hbit] at hword
  · rw [decodeFormatI_of_clear hbit]
    exact ⟨congrArg some hword, rfl⟩
  · rw [decodeFormatI_of_set hbit]
    exact ⟨congrArg some hword, rfl⟩

theorem encode_decode_formatA {w : Word} (hop : opField w = 2#4) :
    encode (decode w) = some w ∧ (decode w).WellFormed := by
  have hword := encodeFormatA_fields hop
  rw [decode_formatA hop]
  by_cases hrsv : rsvFieldA w = 0#4
  · rw [hrsv] at hword
    rw [decodeFormatA_of_clear hrsv]
    exact ⟨congrArg some hword, rfl⟩
  · obtain ⟨-, hwf, henc⟩ := decodeFormatA_of_set hrsv
    exact ⟨henc.trans (congrArg some hword), hwf⟩

/-- Settles O2: the word is its fields put together again, in either format and under a reserved opcode. -/
theorem encodeInvertsDecode : Obligations.EncodeInvertsDecode := by
  intro w
  rcases opField_cases w with hI | hA | ⟨row, hrow⟩
  · exact encode_decode_formatI hI
  · exact encode_decode_formatA hA
  · rw [hrow.decode_eq rfl, hrow.encode_eq, encodeOpcode_fields]
    exact ⟨rfl, hrow.wellFormed _⟩

/-! ### The decode function and its mask/match pairs -/

theorem decode_reserved_of_opField {w : Word} (hI : opField w ≠ 1#4) (hA : opField w ≠ 2#4) : (decode w).Reserved := by
  obtain ⟨row, hrow⟩ := exists_reservedOpcode _ hI hA
  rw [hrow.decode_eq rfl]
  exact hrow.reserved _

/-- Settles O3: the field functions are the slices of R60 to R66, so each case is an equation of its format. -/
theorem decodeFollowsOpcodeMap : Obligations.DecodeFollowsOpcodeMap := by
  intro w
  refine ⟨fun hop hbit => ?_, fun hop hbit => ?_, fun hop hrsv => ?_, fun hop hrsv => ?_, decode_reserved_of_opField⟩
  · exact (decode_formatI hop).trans (decodeFormatI_of_clear hbit)
  · rw [decode_formatI hop, decodeFormatI_of_set hbit]
    rfl
  · exact (decode_formatA hop).trans (decodeFormatA_of_clear hrsv)
  · rw [decode_formatA hop]
    exact (decodeFormatA_of_set hrsv).1

theorem exists_decode_eq_init_iff (w : Word) :
    (∃ ch pin addr, decode w = .init ch pin addr) ↔ opField w = 1#4 ∧ rsvBitI w = false := by
  constructor
  · rintro ⟨ch, pin, addr, h⟩
    obtain ⟨henc, -⟩ := encodeInvertsDecode w
    rw [h] at henc
    cases henc
    simp
  · rintro ⟨hop, hbit⟩
    exact ⟨_, _, _, (decode_formatI hop).trans (decodeFormatI_of_clear hbit)⟩

theorem exists_decode_eq_setang_iff (w : Word) :
    (∃ ch angle, decode w = .setang ch angle) ↔ opField w = 2#4 ∧ rsvFieldA w = 0#4 := by
  constructor
  · rintro ⟨ch, angle, h⟩
    obtain ⟨henc, -⟩ := encodeInvertsDecode w
    rw [h] at henc
    cases henc
    simp
  · rintro ⟨hop, hrsv⟩
    exact ⟨_, _, (decode_formatA hop).trans (decodeFormatA_of_clear hrsv)⟩

/-- INIT's mask keeps OP and bit 19 (30_encoding.md R67). -/
theorem and_initMask (w : Word) :
    w &&& 0xF0080000 = opField w ++ 0#8 ++ BitVec.ofBool (rsvBitI w) ++ 0#3 ++ 0#16 := by
  have hop : opField w &&& 0xF#4 = opField w := BitVec.and_allOnes
  have hbit : BitVec.ofBool (rsvBitI w) &&& 1#1 = BitVec.ofBool (rsvBitI w) := BitVec.and_allOnes
  calc w &&& 0xF0080000
      = (opField w ++ chField w ++ BitVec.ofBool (rsvBitI w) ++ pinField w ++ lowField w) &&&
          (0xF#4 ++ 0#8 ++ 1#1 ++ 0#3 ++ 0#16) := by rw [formatI_fields]; rfl
    _ = _ := by simp only [BitVec.and_append, BitVec.and_zero, hop, hbit]

/-- SETANG's mask keeps OP and bits 19..16 (30_encoding.md R67). -/
theorem and_setangMask (w : Word) : w &&& 0xF00F0000 = opField w ++ 0#8 ++ rsvFieldA w ++ 0#16 := by
  have hkeep (x : BitVec 4) : x &&& 0xF#4 = x := BitVec.and_allOnes
  calc w &&& 0xF00F0000
      = (opField w ++ chField w ++ rsvFieldA w ++ lowField w) &&& (0xF#4 ++ 0#8 ++ 0xF#4 ++ 0#16) := by
        rw [formatA_fields]; rfl
    _ = _ := by simp only [BitVec.and_append, BitVec.and_zero, hkeep]

/-- Settles O4: each mask keeps the very fields that tell the command. -/
theorem maskSelectsCommand : Obligations.MaskSelectsCommand := by
  intro w
  have hinit : ∀ (op : BitVec 4) (bit : Bool),
      op ++ 0#8 ++ BitVec.ofBool bit ++ 0#3 ++ 0#16 = 0x10000000#32 ↔ op = 1#4 ∧ bit = false := by decide
  have hsetang : ∀ op rsv : BitVec 4, op ++ 0#8 ++ rsv ++ 0#16 = 0x20000000#32 ↔ op = 2#4 ∧ rsv = 0#4 := by decide
  refine ⟨?_, ?_, decode_reserved_of_opField⟩
  · rw [exists_decode_eq_init_iff, and_initMask]
    exact (hinit ..).symm
  · rw [exists_decode_eq_setang_iff, and_setangMask]
    exact (hsetang ..).symm

/-- Settles O5: eight runs of the decoder. -/
theorem specWordsDecode : Obligations.SpecWordsDecode := by
  unfold Obligations.SpecWordsDecode
  decide

end Sys2Proof

namespace Sys2Proof.Machine

/-! ### The assembler (30_encoding.md R72) -/

/-- Numbers whose bits do not overlap: `|` is addition, as the formulas of R72 use it. -/
theorem or_eq_add_of_dvd {n a b : Nat} (ha : 2 ^ n ∣ a) (hb : b < 2 ^ n) : a ||| b = a + b := by
  obtain ⟨k, rfl⟩ := ha
  exact (Nat.two_pow_add_eq_or_of_lt hb k).symm

/-- The number that `INIT` assembles to is the word of its fields. -/
theorem ofNat_or_eq_encodeFormatI (ch : Chan) (pin : Pin) (addr : RegAddr) :
    BitVec.ofNat 32 (0x10000000 ||| ch.toNat <<< 20 ||| pin.toNat <<< 16 ||| addr.toNat) =
      encodeFormatI 0#1 ch pin addr := by
  have hch := ch.isLt
  have hopch : 0x10000000 ||| ch.toNat * 2 ^ 20 = 0x10000000 + ch.toNat * 2 ^ 20 :=
    or_eq_add_of_dvd (n := 28) (by decide) (by omega)
  have hpin : 0x10000000 + ch.toNat * 2 ^ 20 ||| pin.toNat * 2 ^ 16 =
      0x10000000 + ch.toNat * 2 ^ 20 + pin.toNat * 2 ^ 16 :=
    or_eq_add_of_dvd (n := 20) (by omega) (by omega)
  apply BitVec.eq_of_toNat_eq
  rw [Nat.shiftLeft_eq, Nat.shiftLeft_eq, hopch, hpin,
    or_eq_add_of_dvd (n := 16) (by omega) addr.isLt, encodeFormatI_toNat, BitVec.toNat_ofNat, BitVec.toNat_ofNat]
  omega

/-- The number that `SETANG` assembles to is the word of its fields. -/
theorem ofNat_or_eq_encodeFormatA (ch : Chan) (angle : BitVec 16) :
    BitVec.ofNat 32 (0x20000000 ||| ch.toNat <<< 20 ||| angle.toNat) = encodeFormatA ch 0#4 angle := by
  have hch := ch.isLt
  have hopch : 0x20000000 ||| ch.toNat * 2 ^ 20 = 0x20000000 + ch.toNat * 2 ^ 20 :=
    or_eq_add_of_dvd (n := 28) (by decide) (by omega)
  apply BitVec.eq_of_toNat_eq
  rw [Nat.shiftLeft_eq, hopch, or_eq_add_of_dvd (n := 16) (by omega) angle.isLt, encodeFormatA_toNat,
    BitVec.toNat_ofNat, BitVec.toNat_ofNat]
  omega

/-- An operand in the range of its field stands in the field unchanged. -/
theorem toNat_ofInt_of_lt {n : Nat} {v : Int} (h0 : 0 ≤ v) (hv : v < 2 ^ n) : (BitVec.ofInt n v).toNat = v.toNat := by
  rw [BitVec.toNat_ofInt, Nat.cast_pow, Nat.cast_ofNat, Int.emod_eq_of_lt h0 hv]

/-- A negative angle operand -m stands in the field as `0x10000 - m` (30_encoding.md R72). -/
theorem toNat_ofInt_angle {angle : Int} (hlo : -0x8000 ≤ angle) (hhi : angle ≤ 0xFFFF) :
    (BitVec.ofInt 16 angle).toNat = (if angle < 0 then 0x10000 + angle else angle).toNat := by
  rw [BitVec.toNat_ofInt]
  split <;> omega

theorem assembleInit_of_range {ch pin addr : Int} (hch : 0 ≤ ch ∧ ch ≤ 255) (hpin : 0 ≤ pin ∧ pin ≤ 7)
    (haddr : 0 ≤ addr ∧ addr ≤ 0xFFFF) :
    assembleInit ch pin addr =
      some (encodeFormatI 0#1 (BitVec.ofInt 8 ch) (BitVec.ofInt 3 pin) (BitVec.ofInt 16 addr)) := by
  rw [assembleInit, if_pos ⟨hch, hpin, haddr⟩, ← ofNat_or_eq_encodeFormatI, toNat_ofInt_of_lt hch.1 (by omega),
    toNat_ofInt_of_lt hpin.1 (by omega), toNat_ofInt_of_lt haddr.1 (by omega)]

theorem assembleAngle_of_range {angle : Int} (hlo : -0x8000 ≤ angle) (hhi : angle ≤ 0xFFFF) :
    assembleAngle angle = some (BitVec.ofInt 16 angle).toNat := by
  rw [toNat_ofInt_angle hlo hhi, assembleAngle]
  by_cases hneg : angle < 0
  · rw [if_neg (by omega), if_pos (by omega), if_pos hneg]
  · rw [if_pos (by omega), if_neg hneg]

theorem assembleAngle_eq_none {angle : Int} (h : angle < -0x8000 ∨ 0xFFFF < angle) : assembleAngle angle = none := by
  rw [assembleAngle, if_neg (by omega), if_neg (by omega)]

theorem assembleSetang_of_range {ch angle : Int} (hch : 0 ≤ ch ∧ ch ≤ 255) (hlo : -0x8000 ≤ angle)
    (hhi : angle ≤ 0xFFFF) :
    assembleSetang ch angle = some (encodeFormatA (BitVec.ofInt 8 ch) 0#4 (BitVec.ofInt 16 angle)) := by
  simp only [assembleSetang, assembleAngle_of_range hlo hhi, if_pos hch]
  rw [← ofNat_or_eq_encodeFormatA, toNat_ofInt_of_lt hch.1 (by omega)]

theorem assembleSetang_eq_none {ch angle : Int} (h : ch < 0 ∨ 255 < ch ∨ angle < -0x8000 ∨ 0xFFFF < angle) :
    assembleSetang ch angle = none := by
  by_cases hangle : angle < -0x8000 ∨ 0xFFFF < angle
  · simp only [assembleSetang, assembleAngle_eq_none hangle]
  · have hch : ¬ (0 ≤ ch ∧ ch ≤ 255) := by omega
    simp only [assembleSetang, assembleAngle_of_range (angle := angle) (by omega) (by omega), if_neg hch]

/-- Settles O7: in range the assembled word is the encoded command, whose number and whose decoding are known. -/
theorem assemblerEmitsTheCommand : Obligations.AssemblerEmitsTheCommand := by
  refine ⟨fun ch pin addr hch0 hch hpin0 hpin haddr0 haddr => ?_, fun ch pin addr h => ?_,
    fun ch angle hch0 hch hlo hhi => ?_, fun ch angle => assembleSetang_eq_none⟩
  · refine ⟨_, assembleInit_of_range ⟨hch0, hch⟩ ⟨hpin0, hpin⟩ ⟨haddr0, haddr⟩, ?_, decode_encodeFormatI ..⟩
    rw [encodeFormatI_toNat, toNat_ofInt_of_lt hch0 (by omega), toNat_ofInt_of_lt hpin0 (by omega),
      toNat_ofInt_of_lt haddr0 (by omega), BitVec.toNat_ofNat]
    omega
  · exact if_neg (by omega)
  · refine ⟨_, assembleSetang_of_range ⟨hch0, hch⟩ hlo hhi, ?_, decode_encodeFormatA ..⟩
    rw [encodeFormatA_toNat, toNat_ofInt_of_lt hch0 (by omega), toNat_ofInt_angle hlo hhi, BitVec.toNat_ofNat]
    split <;> omega

/-! ### The angle field (30_encoding.md R65) -/

/-- Settles O8: a field with its top bit set is above 180 as unsigned and below 0 as two's complement. -/
theorem signedReadingSelectsTheSameAngles : Obligations.SignedReadingSelectsTheSameAngles := by
  intro angle
  have hvalid : angleValid angle = true ↔ angle.toNat ≤ 180 := decide_eq_true_iff
  have hlt := angle.isLt
  refine ⟨hvalid, hvalid.trans ?_⟩
  rw [BitVec.toInt_eq_toNat_cond]
  split <;> omega

end Sys2Proof.Machine

/-!
PROOFS. The host commands (40_host_commands.md): for each command word the state it answers, written out. A command is
its effect under the configuration check, so each proof is the effect's equation in the case that its premises name.
-/

namespace Sys2Proof.Machine

/-! ### Steps of the host and the timer -/

/-- Under a well-formed configuration an instruction answers the state its effect gives. -/
theorem exec_of_instrEffect {i : Instr} {s t : State} (hcfg : s.cfg.WellFormed) (h : instrEffect i s = .ok t) :
    exec i s = .next t := by
  rw [exec_eq_underConfig]
  exact (underConfig_next ..).2 ⟨hcfg, h⟩

/-- Bytes at CMD that decode run the instruction they decode to (40_host_commands.md R76). -/
theorem hostWrite_cmd {bytes : List Byte} {i : Instr} (s : State) (h : decodeBytes bytes = .ok i) :
    hostWrite s.cfg.blockBase bytes s = exec i s := by
  simp [hostWrite, cmdAddr, h]

/-- A command word at the head of the list is executed in that step (40_host_commands.md R76). -/
theorem step_of_commandWrite {s : State} {w : Word} {rest : List Action}
    (h : s.pending = commandWrite s.cfg w :: rest) : step s = exec (decode w) (s.withPending rest) := by
  rw [step_of_pending_cons h]
  exact hostWrite_cmd (s.withPending rest) (decodeBytes_bytesOfWord w)

/-- A status read at the head of the list is RDSTAT (40_host_commands.md R82). -/
theorem step_of_statusRead {s : State} {rest : List Action} (h : s.pending = statusRead s.cfg :: rest) :
    step s = exec .rdstat (s.withPending rest) := by
  rw [step_of_pending_cons h]
  exact if_pos ⟨rfl, rfl⟩

/-- A placed table word of 32 bits runs the instruction it decodes to, on the state it was placed in (log 4). -/
theorem step_withFetchWord (s : State) {w : Nat} (hw : w < 2 ^ 32) :
    step (s.withFetchWord 32 w) = exec (decode (BitVec.ofNat 32 w)) s := by
  have hword : tableWord 32 w = BitVec.ofNat 32 w := by rw [tableWord, Nat.mod_eq_of_lt hw]
  rw [← hword]
  exact step_of_commandWrite (s := s.withFetchWord 32 w) rfl

/-- Settles O58: each kind of action at the head of the list, by its own rule, and a tick for the empty list. -/
theorem stepRunsTheNextAction : Obligations.StepRunsTheNextAction := by
  refine ⟨fun s b0 b1 b2 b3 rest h => ?_, fun _ _ _ h => step_of_commandWrite h, fun s _ hw => step_withFetchWord s hw,
    fun _ _ h => step_of_statusRead h, fun _ _ h => step_of_pending_cons h, step_of_pending_nil⟩
  rw [step_of_pending_cons h]
  exact hostWrite_cmd (s.withPending rest) rfl

/-! ### The status register (R82, R83) -/

theorem exec_rdstat {s : State} (hcfg : s.cfg.WellFormed) : exec .rdstat s = .next (s.giveHost s.status) :=
  exec_of_instrEffect hcfg rfl

/-- Settles O19: RDSTAT's whole effect is what the host gets, and the host's read at offset 4 is RDSTAT. -/
theorem statusReadHasNoSideEffect : Obligations.StatusReadHasNoSideEffect :=
  ⟨fun _ hcfg => exec_rdstat hcfg,
    fun s rest hcfg h => (step_of_statusRead h).trans (exec_rdstat (s := s.withPending rest) hcfg)⟩

/-- Settles O21: the no-op write of the host window. -/
theorem statusWriteIsANoOp : Obligations.StatusWriteIsANoOp := by
  obtain ⟨-, -, hnoop⟩ := otherHostAccessesAreRefused
  exact hnoop

/-! ### Reserved words (R80, R81) -/

theorem instrEffect_of_reserved {i : Instr} (h : i.Reserved) (s : State) : instrEffect i s = reject .op s := by
  cases i with
  | init | setang | rdstat | tick | event => cases h
  | _ => rfl

/-- Settles O16: every reserved row has one effect, the rejection with ERR_OP. -/
theorem everyReservedRowCompletes : Obligations.EveryReservedRowCompletes :=
  fun _ s hres hcfg => exec_of_instrEffect hcfg (instrEffect_of_reserved hres s)

/-- STATUS after a rejection with ERR_OP, the first after reset, shows that flag and nothing else (10_state.md R33). -/
theorem resetWith_setFlag_op_status (c : Config) : ((State.resetWith c).setFlag .op).status = 0x00000001 :=
  BitVec.eq_of_toNat_eq (by simp [status_toNat, Phase.bit])

/-- Settles O14: such a word decodes to a reserved row. -/
theorem reservedOpcodeIsRejected : Obligations.ReservedOpcodeIsRejected :=
  ⟨fun _ _ hcfg hI hA => everyReservedRowCompletes _ _ (decode_reserved_of_opField hI hA) hcfg,
    fun c hc => ⟨_, everyReservedRowCompletes _ (State.resetWith c) (by decide) hc, resetWith_setFlag_op_status c⟩⟩

/-- A set reserved bit of either format makes a reserved word, whatever its other fields hold (R81). -/
theorem decode_reserved_of_reservedBit {w : Word}
    (h : (opField w = 1#4 ∧ rsvBitI w = true) ∨ (opField w = 2#4 ∧ rsvFieldA w ≠ 0#4)) : (decode w).Reserved := by
  rcases h with ⟨hop, hbit⟩ | ⟨hop, hrsv⟩
  · rw [decode_formatI hop, decodeFormatI_of_set hbit]
    rfl
  · rw [decode_formatA hop]
    obtain ⟨hres, -, -⟩ := decodeFormatA_of_set hrsv
    exact hres

/-- Settles O15: such a word decodes to a reserved row. -/
theorem reservedBitsAreRejected : Obligations.ReservedBitsAreRejected :=
  ⟨fun _ _ hcfg h => everyReservedRowCompletes _ _ (decode_reserved_of_reservedBit h) hcfg,
    fun c hc => ⟨_, everyReservedRowCompletes _ (State.resetWith c) (by decide) hc, resetWith_setFlag_op_status c, rfl⟩⟩

/-! ### SETANG (R79, R86) -/

/-- An angle above 180 changes nothing and sets no flag (40_host_commands.md R79). -/
theorem setangCommand_of_invalid {ch : Chan} {angle : BitVec 16} {s : State} (hch : ch.toNat < s.cfg.nCh)
    (hinit : ch.toNat < s.initCount.toNat) (hangle : 180 < angle.toNat) : setangCommand ch angle s = .ok s := by
  simp [setangCommand, hch.not_ge, hinit.not_ge, angleValid, hangle.not_ge]

/-- Settles O13: SETANG's two channel checks, which come before its angle. -/
theorem rejectedSetangSetsOneFlag : Obligations.RejectedSetangSetsOneFlag :=
  fun _ _ angle hcfg =>
    ⟨fun hch => exec_of_instrEffect hcfg (setangCommand_of_nCh_le angle hch),
      fun hch huninit => exec_of_instrEffect hcfg (setangCommand_of_uninit angle hch huninit)⟩

/-- The slot read back after a function replaced it (10_state.md R15). -/
theorem slots_modify_getElem?_same {slots : List Slot} {ch : Nat} {sl : Slot} (f : Slot → Slot)
    (h : slots[ch]? = some sl) : (slots.modify ch f)[ch]? = some (f sl) := by
  rw [slots_modify_getElem?, if_pos rfl, h, Option.map_some]

/-- A channel of the configuration has a slot (10_state.md R15). -/
theorem exists_slot {s : State} (hshape : s.Shape) {ch : Nat} (hch : ch < s.cfg.nCh) :
    ch < s.slots.length ∧ ∃ sl, s.slot? ch = some sl := by
  obtain ⟨hslots, -, -⟩ := hshape
  have hlt : ch < s.slots.length := hslots ▸ hch
  exact ⟨hlt, _, List.getElem?_eq_getElem hlt⟩

/-- Settles O12: SETANG stores a valid angle in its own slot, ignores an invalid one, and is rejected otherwise. -/
theorem setangSetsOnlyItsAngle : Obligations.SetangSetsOnlyItsAngle := by
  intro s ch angle hcfg
  obtain ⟨hrejectCh, hrejectUninit⟩ := rejectedSetangSetsOneFlag s ch angle hcfg
  refine ⟨fun hshape hch hinit hangle => ?_, fun hch hinit hangle => ?_, fun hreject => ?_⟩
  · obtain ⟨hlt, sl, hsl⟩ := exists_slot hshape hch
    have hset := (setAngle_ok ch.toNat (storedAngle angle) s _).2 ⟨hlt, rfl⟩
    have hstored : storedAngle angle = BitVec.ofNat 8 angle.toNat := rfl
    exact ⟨_, exec_of_instrEffect hcfg ((setangCommand_of_valid hch hinit hangle).trans hset),
      ⟨sl, hsl, hstored ▸ slots_modify_getElem?_same _ hsl⟩, fun c hne => List.getElem?_modify_ne _ _ hne.symm, rfl⟩
  · exact exec_of_instrEffect hcfg (setangCommand_of_invalid hch hinit hangle)
  · rcases Nat.lt_or_ge ch.toNat s.cfg.nCh with hch | hch
    · exact ⟨_, hrejectUninit hch (hreject.resolve_left hch.not_ge), .inr rfl, rfl⟩
    · exact ⟨_, hrejectCh hch, .inl rfl, rfl⟩

/-! ### The port lookup (43_gpio_toggle.md R120) -/

theorem lookupFrom_eq_none_iff (addr : RegAddr) (n : Nat) (ports : List PortAddr) :
    lookupFrom addr n ports = none ↔ ∀ pair ∈ ports, pair.dirAddr ≠ addr := by
  induction ports generalizing n with
  | nil => simp [lookupFrom]
  | cons pair rest ih =>
    by_cases h : pair.dirAddr = addr
    · simp [lookupFrom, h]
    · simp [lookupFrom, h, ih]

/-- No port is found exactly for an address that no direction register has (43_gpio_toggle.md R120). -/
theorem lookupPort_eq_none_iff (c : Config) (addr : RegAddr) :
    lookupPort c addr = none ↔ ∀ pair ∈ c.ports, pair.dirAddr ≠ addr :=
  lookupFrom_eq_none_iff addr 0 c.ports

/-- The direction registers of a well-formed configuration have distinct addresses (00_scope.md R7). -/
theorem dirAddrs_nodup {c : Config} (hc : c.WellFormed) : (c.ports.map PortAddr.dirAddr).Nodup := by
  obtain ⟨-, -, haddrs, -⟩ := hc
  exact haddrs.of_append_left

/-- Port p is found exactly for the address of DIR[p] (43_gpio_toggle.md R120). -/
theorem lookupPort_eq_some_iff {c : Config} (hc : c.WellFormed) (addr : RegAddr) (p : Nat) :
    lookupPort c addr = some p ↔ ∃ pair, c.ports[p]? = some pair ∧ pair.dirAddr = addr := by
  constructor
  · intro h
    obtain ⟨-, hpair⟩ := lookupFrom_some h
    exact hpair
  · rintro ⟨pair, hp, rfl⟩
    rcases hq : lookupPort c pair.dirAddr with _ | q
    · exact absurd rfl ((lookupPort_eq_none_iff ..).1 hq pair (List.mem_of_getElem? hp))
    · obtain ⟨-, other, hother, haddr⟩ := lookupFrom_some hq
      have hlt : q < (c.ports.map PortAddr.dirAddr).length := by simpa using lookupPort_lt hq
      have hsame : (c.ports.map PortAddr.dirAddr)[q]? = (c.ports.map PortAddr.dirAddr)[p]? := by
        simpa [hp] using ⟨other, hother, haddr⟩
      rw [(List.getElem?_inj hlt (dirAddrs_nodup hc)).1 hsame]

/-! ### INIT (R78, R85) -/

/-- INIT of a channel that the configuration lacks (60_exceptions.md R132). -/
theorem initCommand_of_nCh_le {ch : Chan} {s : State} (pin : Pin) (addr : RegAddr) (hch : s.cfg.nCh ≤ ch.toNat) :
    initCommand ch pin addr s = .ok (s.setFlag .ch) := by
  simp [initCommand, hch]

/-- INIT with an address that is no direction register's (60_exceptions.md R132). -/
theorem initCommand_of_lookup_none {s : State} (pin : Pin) {addr : RegAddr} (hch : s.initCount.toNat < s.cfg.nCh)
    (hport : lookupPort s.cfg addr = none) : initCommand s.initCount pin addr s = .ok (s.setFlag .addr) := by
  simp [initCommand, hch.not_ge, hport]

/-- INIT that passes its checks (40_host_commands.md R78). -/
theorem initCommand_of_lookup_some {s : State} (pin : Pin) {addr : RegAddr} {port : Nat}
    (hch : s.initCount.toNat < s.cfg.nCh) (hport : lookupPort s.cfg addr = some port) :
    initCommand s.initCount pin addr s = acceptInit s.initCount pin port s := by
  simp [initCommand, hch.not_ge, hport]

/-- Settles O10: INIT's three checks, each where those before it pass. -/
theorem rejectedInitSetsOneFlag : Obligations.RejectedInitSetsOneFlag := by
  intro s ch pin addr hcfg
  refine ⟨fun hch => ?_, fun hch hseq => ?_, fun hch hseq hports => ?_⟩
  · exact exec_of_instrEffect hcfg (initCommand_of_nCh_le pin addr hch)
  · exact exec_of_instrEffect hcfg (initCommand_of_ne_initCount pin addr hch hseq)
  · subst hseq
    exact exec_of_instrEffect hcfg (initCommand_of_lookup_none pin hch ((lookupPort_eq_none_iff ..).2 hports))

/-- INIT_COMPARE fits COMPARE (00_scope.md R7). -/
theorem initCompare_lt_span {c : Config} (hc : c.WellFormed) : c.initCompare < c.span := by
  obtain ⟨-, -, -, -, -, ⟨-, hle⟩, -⟩ := hc
  have hpos : 0 < c.span := Nat.two_pow_pos c.w
  omega

/-- Settles O9: the record of an accepted INIT, whose slot, direction bit and count are then read back. -/
theorem acceptedInitEffect : Obligations.AcceptedInitEffect := by
  rintro s ch pin addr port pair hcfg hshape hch rfl hpair haddr
  have hport : lookupPort s.cfg addr = some port := (lookupPort_eq_some_iff hcfg addr port).2 ⟨pair, hpair, haddr⟩
  obtain ⟨hlt, sl, hsl⟩ := exists_slot hshape hch
  have hdir : port < s.dir.length := by
    obtain ⟨-, hlen, -⟩ := hshape
    exact hlen ▸ lookupPort_lt hport
  have haccept := (acceptInit_ok s.initCount pin port s _).2 ⟨⟨hlt, hdir, initCompare_lt_span hcfg⟩, rfl⟩
  exact ⟨_, exec_of_instrEffect hcfg ((initCommand_of_lookup_some pin hch hport).trans haccept),
    ⟨sl, hsl, slots_modify_getElem?_same _ hsl⟩, lookupPort_toNat hcfg hport,
    fun c hne => List.getElem?_modify_ne _ _ hne.symm, getD_modify_setBit s.dir port pin true hdir,
    List.length_modify .., initCount_succ_toNat hcfg hch, rfl⟩

/-- A field that a slot's update keeps is the same list over the whole table. -/
theorem map_slots_modify_of_keeps {α : Type} (slots : List Slot) (ch : Nat) (f : Slot → Slot) (field : Slot → α)
    (hkeeps : ∀ sl, field (f sl) = field sl) : (slots.modify ch f).map field = slots.map field :=
  List.ext_getElem? fun c => by
    rw [List.getElem?_map, List.getElem?_map, slots_modify_map_of_keeps slots ch c f field hkeeps]

/-- Settles O25: a rejected INIT writes no slot, and an accepted one a slot's pin and port only. -/
theorem initKeepsEveryAngle : Obligations.InitKeepsEveryAngle := by
  intro s t ch pin addr h
  obtain ⟨-, hcmd⟩ := (underConfig_next ..).1 h
  rcases initCommand_ok _ _ _ _ _ hcmd with ⟨-, rfl⟩ | ⟨-, -, rfl⟩ | ⟨-, -, -, rfl⟩ | ⟨-, -, port, -, haccept⟩
  · rw [State.setFlag_slots]
  · rw [State.setFlag_slots]
  · rw [State.setFlag_slots]
  · obtain ⟨-, rfl⟩ := (acceptInit_ok ..).1 haccept
    exact map_slots_modify_of_keeps s.slots ch.toNat _ Slot.angle fun _ => rfl

/-! ### What no command word writes (R77) -/

/-- Settles O24: a command word is rejected, an accepted INIT or a SETANG, and none of these writes those fields. -/
theorem commandsLeaveTheSequencerAlone : Obligations.CommandsLeaveTheSequencerAlone := by
  intro w s t h
  have henc := decode_hasEncoding w
  obtain ⟨-, ⟨-, e, rfl⟩ | ⟨_, _, _, _, -, -, -, -, haccept⟩ | ⟨_, _, -, -, -, ⟨-, hset⟩ | ⟨-, rfl⟩⟩ | ⟨hi, -⟩ |
    ⟨hi, -⟩ | ⟨hi, -⟩⟩ := exec_next_cases _ s t h
  · simp
  · obtain ⟨-, rfl⟩ := (acceptInit_ok ..).1 haccept
    exact ⟨rfl, rfl, rfl, rfl, rfl, rfl, rfl⟩
  · obtain ⟨-, rfl⟩ := (setAngle_ok ..).1 hset
    exact ⟨rfl, rfl, rfl, rfl, rfl, rfl, rfl⟩
  · exact ⟨rfl, rfl, rfl, rfl, rfl, rfl, rfl⟩
  all_goals
    rw [hi] at henc
    cases henc

end Sys2Proof.Machine

/-!
PROOFS. The timer and the compare-match event (41_timer_event.md). `State.afterEvent` is the state an event leaves, as a
function; the laws of TICK and EVENT are stated with it once, and the timing laws count the ticks between one such state
and the next.
-/

namespace Sys2Proof.Machine

/-! ### The timer's step (R91) -/

theorem timerTick_of_stopped {s : State} (hrun : s.run = false) : timerTick s = .ok s := by
  simp [timerTick, hrun]

theorem timerTick_of_ne {s : State} (hrun : s.run = true) (hne : nextCount s ≠ s.compare) :
    timerTick s = .ok (s.setCounter (nextCount s)) := by
  simp [timerTick, hrun, hne]

theorem timerTick_of_match {s : State} (hrun : s.run = true) (hmatch : nextCount s = s.compare) :
    timerTick s = event (s.setCounter 0) := by
  simp [timerTick, hrun, hmatch]

theorem exec_tick_of_stopped {s : State} (hcfg : s.cfg.WellFormed) (hrun : s.run = false) : exec .tick s = .next s :=
  (underConfig_next ..).2 ⟨hcfg, timerTick_of_stopped hrun⟩

theorem exec_tick_of_ne {s : State} (hcfg : s.cfg.WellFormed) (hrun : s.run = true) (hne : nextCount s ≠ s.compare) :
    exec .tick s = .next (s.setCounter (nextCount s)) :=
  (underConfig_next ..).2 ⟨hcfg, timerTick_of_ne hrun hne⟩

theorem exec_tick_of_match {s : State} (hrun : s.run = true) (hmatch : nextCount s = s.compare) :
    exec .tick s = exec .event (s.setCounter 0) :=
  congrArg (underConfig s) (timerTick_of_match hrun hmatch)

/-- Settles O26: the three cases of TICK. -/
theorem tickFollowsItsRule : Obligations.TickFollowsItsRule :=
  fun _ hcfg => ⟨exec_tick_of_stopped hcfg, exec_tick_of_ne hcfg, exec_tick_of_match⟩

/-! ### The state an event leaves (R94 to R96) -/

/-- The slot of the active channel (10_state.md R27); the default is never reached from the invariant (R39). -/
def State.activeSlot (s : State) : Slot := (s.slot? s.activeCh.toNat).getD ⟨0, 0, 0⟩

theorem activeSlot_eq {s : State} {sl : Slot} (h : s.slot? s.activeCh.toNat = some sl) : s.activeSlot = sl := by
  rw [State.activeSlot, h, Option.getD_some]

/-- The ticks of the active slot's next segment, `duration(SLOT[ACTIVE_CH].ANGLE)` (41_timer_event.md R97). -/
def State.segmentTicks (s : State) : Nat := duration s.cfg s.activeSlot.angle.toNat

/-- The state after EVENT (41_timer_event.md R94, R95); `exec_event` ties it to the model's EVENT. -/
def State.afterEvent (s : State) : State :=
  { s with
    out := eventOut s s.activeSlot
    compare := s.segmentTicks
    activeCh := if s.phase = .high then s.activeCh else nextChannel s.cfg s.activeCh
    phase := if s.phase = .high then .low else .high }

section afterEvent
variable (s : State)

@[simp] theorem State.afterEvent_cfg : s.afterEvent.cfg = s.cfg := rfl
@[simp] theorem State.afterEvent_pending : s.afterEvent.pending = s.pending := rfl
@[simp] theorem State.afterEvent_slot? (c : Nat) : s.afterEvent.slot? c = s.slot? c := rfl
@[simp] theorem State.afterEvent_initCount : s.afterEvent.initCount = s.initCount := rfl
@[simp] theorem State.afterEvent_counter : s.afterEvent.counter = s.counter := rfl
@[simp] theorem State.afterEvent_compare : s.afterEvent.compare = s.segmentTicks := rfl
@[simp] theorem State.afterEvent_run : s.afterEvent.run = s.run := rfl
@[simp] theorem State.afterEvent_flag (e : ErrFlag) : s.afterEvent.flag e = s.flag e := by cases e <;> rfl
@[simp] theorem State.afterEvent_out_length : s.afterEvent.out.length = s.out.length := eventOut_length ..

end afterEvent

theorem afterEvent_phase_ne (s : State) : s.afterEvent.phase ≠ s.phase := by
  cases h : s.phase <;> simp [State.afterEvent, h]

/-- A High event lowers the phase and stays with its channel (41_timer_event.md R95). -/
theorem afterEvent_of_high {s : State} (h : s.phase = .high) :
    s.afterEvent.phase = .low ∧ s.afterEvent.activeCh = s.activeCh := by
  simp [State.afterEvent, h]

/-- The round robin's successor as a number (41_timer_event.md R96). -/
theorem nextChannel_toNat {c : Config} (hc : c.WellFormed) (ch : Chan) :
    (nextChannel c ch).toNat = (ch.toNat + 1) % c.nCh := by
  obtain ⟨⟨hpos, hle⟩, -⟩ := hc
  have hlt := Nat.mod_lt (ch.toNat + 1) hpos
  exact Nat.mod_eq_of_lt (by omega)

/-- A Low event raises the phase and moves to the next channel (41_timer_event.md R95, R96). -/
theorem afterEvent_of_low {s : State} (hcfg : s.cfg.WellFormed) (h : s.phase = .low) :
    s.afterEvent.phase = .high ∧ s.afterEvent.activeCh.toNat = (s.activeCh.toNat + 1) % s.cfg.nCh := by
  simp [State.afterEvent, h, nextChannel_toNat hcfg]

/-- The output bits after an event: the bit the active slot names follows the phase if the channel is initialized, and
every other is as it was (43_gpio_toggle.md R123, R124). -/
theorem afterEvent_outBit {s : State} {sl : Slot} (hsl : s.slot? s.activeCh.toNat = some sl)
    (hport : s.activeCh.toNat < s.initCount.toNat → sl.port.toNat < s.out.length) (q b : Nat) :
    s.afterEvent.outBit q b =
      if s.activeCh.toNat < s.initCount.toNat ∧ q = sl.port.toNat ∧ b = sl.pin.toNat then s.phase.bit
      else s.outBit q b := by
  have hout : s.afterEvent.out = eventOut s sl := by rw [← activeSlot_eq hsl]; rfl
  by_cases hinit : s.activeCh.toNat < s.initCount.toNat
  · simpa [State.outBit, hout, eventOut, State.initialized, hinit] using
      getD_modify_setBit s.out sl.port.toNat sl.pin s.phase.bit (hport hinit) q b
  · simp [State.outBit, hout, eventOut, State.initialized, hinit]

/-- An uninitialized channel's event writes no pin (41_timer_event.md R99). -/
theorem afterEvent_out_of_uninit {s : State} (h : s.initCount.toNat ≤ s.activeCh.toNat) :
    s.afterEvent.out = s.out := by
  simp [State.afterEvent, eventOut, State.initialized, h.not_gt]

/-! ### EVENT completes (R94, R99) -/

/-- Every duration fits the W bits of COMPARE (00_scope.md R7, 42_duration_mapper.md R116). -/
theorem duration_lt_span {c : Config} (hc : c.WellFormed) {angle : Nat} (hangle : angle ≤ 180) :
    duration c angle < c.span := by
  obtain ⟨-, -, -, -, hmax, -⟩ := hc
  have hmul : angle * c.k ≤ 180 * c.k := Nat.mul_le_mul_right _ hangle
  have hpos : 0 < c.span := Nat.two_pow_pos _
  have hdmax : 180 * c.k + c.base ≤ c.span - 1 := hmax
  unfold duration
  omega

/-- EVENT answers `afterEvent` wherever the active slot exists, with a valid angle and an existing port. -/
theorem exec_event {s : State} {sl : Slot} (hcfg : s.cfg.WellFormed) (hsl : s.slot? s.activeCh.toNat = some sl)
    (hangle : sl.angle.toNat ≤ 180) (hport : s.activeCh.toNat < s.initCount.toNat → sl.port.toNat < s.out.length) :
    exec .event s = .next s.afterEvent := by
  obtain rfl := activeSlot_eq hsl
  exact exec_of_instrEffect hcfg ((event_ok s _).2 ⟨_, hsl, hport, duration_lt_span hcfg hangle, rfl⟩)

/-- The active channel is one of the configuration's (10_state.md R39). -/
theorem State.Inv.activeCh_lt {s : State} (hs : s.Inv) : s.activeCh.toNat < s.cfg.nCh := by
  have hactive := hs.active
  obtain ⟨⟨hpos, -⟩, -⟩ := hs.config
  omega

/-- In a state of the invariant the active slot exists, with a valid angle and an existing port (10_state.md R39). -/
theorem State.Inv.activeSlot_spec {s : State} (hs : s.Inv) :
    s.slot? s.activeCh.toNat = some s.activeSlot ∧ s.activeSlot.angle.toNat ≤ 180 ∧
      (s.activeCh.toNat < s.initCount.toNat → s.activeSlot.port.toNat < s.out.length) := by
  obtain ⟨-, sl, hsl⟩ := exists_slot hs.shape hs.activeCh_lt
  obtain rfl := activeSlot_eq hsl
  obtain ⟨-, -, hout⟩ := hs.shape
  exact ⟨hsl, hs.angles _ (List.mem_of_getElem? hsl), fun hinit => hout ▸ hs.ports _ hinit _ hsl⟩

theorem exec_event_of_inv {s : State} (hs : s.Inv) : exec .event s = .next s.afterEvent := by
  obtain ⟨hsl, hangle, hport⟩ := hs.activeSlot_spec
  exact exec_event hs.config hsl hangle hport

theorem afterEvent_inv {s : State} (hs : s.Inv) (hrun : s.run = true) : s.afterEvent.Inv :=
  event_inv hs hrun ((underConfig_next ..).1 (exec_event_of_inv hs)).2

/-- Settles O30: from the invariant EVENT answers `afterEvent`, which writes no flag. -/
theorem eventCannotFail : Obligations.EventCannotFail :=
  fun s hs => ⟨s.afterEvent, exec_event_of_inv hs, afterEvent_phase_ne s, s.afterEvent_flag, afterEvent_out_of_uninit⟩

/-- Settles O28: `afterEvent` where the phase is High. -/
theorem highEventEffect : Obligations.HighEventEffect := by
  intro s sl hcfg hphase hsl hangle hport
  refine ⟨s.afterEvent, exec_event hcfg hsl hangle hport, ?_, s.afterEvent_out_length, ?_⟩
  · simpa only [hphase, Phase.bit] using afterEvent_outBit hsl hport
  · rw [← activeSlot_eq hsl]
    simp [State.afterEvent, hphase, State.segmentTicks, duration]

/-- Settles O29: `afterEvent` where the phase is Low. -/
theorem lowEventEffect : Obligations.LowEventEffect := by
  intro s sl hcfg hphase hsl hangle hport
  obtain ⟨-, hactive⟩ := afterEvent_of_low hcfg hphase
  refine ⟨s.afterEvent, exec_event hcfg hsl hangle hport, ?_, s.afterEvent_out_length, hactive, ?_⟩
  · simpa only [hphase, Phase.bit] using afterEvent_outBit hsl hport
  · rw [← activeSlot_eq hsl]
    simp [State.afterEvent, hphase, State.segmentTicks, duration]

/-- Settles O27: the tick is EVENT on the state with COUNTER 0, which is a state of the invariant. -/
theorem matchingTickCompletes : Obligations.MatchingTickCompletes := by
  intro s sl hs hrun hmatch hsl
  have hzero : (s.setCounter 0).Inv := setCounter_inv hs hrun (Nat.two_pow_pos _)
  have hactive : (s.setCounter 0).activeSlot = sl := activeSlot_eq hsl
  refine ⟨(s.setCounter 0).afterEvent, (exec_tick_of_match hrun hmatch).trans (exec_event_of_inv hzero), rfl,
    afterEvent_phase_ne _, ?_⟩
  rw [← hactive]
  rfl

/-! ### The order of the events (R103, R107) -/

/-- A High event and the Low event after it lead to the next channel's High event (41_timer_event.md R95, R96). -/
theorem afterEvent_twice_of_high {s : State} (hcfg : s.cfg.WellFormed) (h : s.phase = .high) :
    s.afterEvent.afterEvent.phase = .high ∧
      s.afterEvent.afterEvent.activeCh.toNat = (s.activeCh.toNat + 1) % s.cfg.nCh := by
  obtain ⟨hlow, hsame⟩ := afterEvent_of_high h
  obtain ⟨hhigh, hnext⟩ := afterEvent_of_low (s := s.afterEvent) hcfg hlow
  exact ⟨hhigh, by rw [hnext, hsame, State.afterEvent_cfg]⟩

/-- Events write the output bits, COMPARE and the sequencer, and nothing else (41_timer_event.md R94). -/
theorem afterEvents_frame (s : State) (k : Nat) :
    State.afterEvent^[k] s =
      { s with
        out := (State.afterEvent^[k] s).out
        compare := (State.afterEvent^[k] s).compare
        activeCh := (State.afterEvent^[k] s).activeCh
        phase := (State.afterEvent^[k] s).phase } := by
  induction k with
  | zero => rfl
  | succ k ih =>
    rw [Function.iterate_succ_apply']
    exact congrArg (fun u : State =>
      { u with
        out := (State.afterEvent^[k] s).afterEvent.out
        compare := (State.afterEvent^[k] s).afterEvent.compare
        activeCh := (State.afterEvent^[k] s).afterEvent.activeCh
        phase := (State.afterEvent^[k] s).afterEvent.phase }) ih

section afterEvents
variable (s : State) (k : Nat)

@[simp] theorem afterEvents_cfg : (State.afterEvent^[k] s).cfg = s.cfg := by rw [afterEvents_frame]
@[simp] theorem afterEvents_slot? (c : Nat) : (State.afterEvent^[k] s).slot? c = s.slot? c := by
  rw [afterEvents_frame]; rfl
@[simp] theorem afterEvents_initCount : (State.afterEvent^[k] s).initCount = s.initCount := by rw [afterEvents_frame]

end afterEvents

/-- Every second event comes back to the phase, one channel on (41_timer_event.md R103). -/
theorem afterEvents_even {s : State} (hs : s.Inv) (h : s.phase = .high) (k : Nat) :
    (State.afterEvent^[2 * k] s).phase = .high ∧
      (State.afterEvent^[2 * k] s).activeCh.toNat = (s.activeCh.toNat + k) % s.cfg.nCh := by
  induction k with
  | zero =>
    exact ⟨h, (Nat.mod_eq_of_lt hs.activeCh_lt).symm⟩
  | succ k ih =>
    obtain ⟨hphase, hch⟩ := ih
    have hcfg := afterEvents_cfg s (2 * k)
    obtain ⟨hphase', hch'⟩ := afterEvent_twice_of_high (hcfg ▸ hs.config) hphase
    rw [Nat.mul_succ, Function.iterate_succ_apply', Function.iterate_succ_apply']
    refine ⟨hphase', ?_⟩
    rw [hch', hcfg, hch, Nat.mod_add_mod, Nat.add_assoc]

/-- The event in between is the channel's High event, which leaves the phase Low (41_timer_event.md R103). -/
theorem afterEvents_odd {s : State} (hs : s.Inv) (h : s.phase = .high) (k : Nat) :
    (State.afterEvent^[2 * k + 1] s).phase = .low ∧
      (State.afterEvent^[2 * k + 1] s).activeCh.toNat = (s.activeCh.toNat + k) % s.cfg.nCh := by
  obtain ⟨hphase, hch⟩ := afterEvents_even hs h k
  obtain ⟨hlow, hsame⟩ := afterEvent_of_high hphase
  rw [Function.iterate_succ_apply']
  exact ⟨hlow, hsame ▸ hch⟩

/-- From a running state of the invariant, events one after another all complete (41_timer_event.md R99). -/
theorem takeEvents_eq {s : State} (hs : s.Inv) (hrun : s.run = true) (k : Nat) :
    takeEvents k s = .next (State.afterEvent^[k] s) := by
  induction k generalizing s with
  | zero => rfl
  | succ k ih =>
    rw [takeEvents, exec_event_of_inv hs]
    exact ih (afterEvent_inv hs hrun) hrun

/-- Only a running timer is in phase High (10_state.md R39). -/
theorem State.Inv.run_of_high {s : State} (hs : s.Inv) (h : s.phase = .high) : s.run = true := by
  by_contra hrun
  obtain ⟨-, -, hlow, -⟩ := hs.stopped (Bool.eq_false_iff.2 hrun)
  exact absurd (h.symm.trans hlow) nofun

/-- Settles O36: the events' states, whose phase and channel go by the number of the events. -/
theorem eventsVisitTheChannelsInOrder : Obligations.EventsVisitTheChannelsInOrder :=
  fun _ k hs hphase =>
    have hrun := hs.run_of_high hphase
    ⟨⟨_, takeEvents_eq hs hrun _, afterEvents_even hs hphase k⟩,
      ⟨_, takeEvents_eq hs hrun _, afterEvents_odd hs hphase k⟩⟩

end Sys2Proof.Machine

/-!
PROOFS. The interval law (41_timer_event.md R92) and what follows from it: the wrap (R93), the recurrence of events
(R109), the slot (R104) and the start-up (R102). The law is proved for a run of ticks alone, and for a run of any agents'
steps, of which only a tick, reset and an accepted INIT write the timer.
-/

namespace Sys2Proof.Machine

/-! ### The ticks to the next event (R92) -/

/-- `m` of 41_timer_event.md R92 without the modulus: COMPARE is ahead of COUNTER, or the counter has to wrap first. -/
theorem ticksToEvent_eq {s : State} (hcounter : s.counter < s.cfg.span) (hcompare : s.compare < s.cfg.span) :
    s.ticksToEvent =
      if s.counter < s.compare then s.compare - s.counter else s.cfg.span - s.counter + s.compare := by
  unfold State.ticksToEvent
  dsimp only
  generalize s.cfg.span = span at *
  by_cases hlt : s.counter < s.compare
  · have hmod : ((s.compare : Int) - s.counter) % span = s.compare - s.counter :=
      Int.emod_eq_of_lt (by omega) (by omega)
    rw [hmod, if_pos hlt]
    split <;> omega
  · by_cases heq : s.counter = s.compare
    · simp [heq]
      omega
    · have hmod : ((s.compare : Int) - s.counter) % span = s.compare - s.counter + span := by
        rw [← Int.add_emod_right]
        exact Int.emod_eq_of_lt (by omega) (by omega)
      rw [hmod, if_neg hlt]
      split <;> omega

/-- A sum of less than two spans wraps at most once. -/
theorem mod_span_eq_ite {a span : Nat} (h : a < 2 * span) : a % span = if a < span then a else a - span := by
  split
  · exact Nat.mod_eq_of_lt ‹_›
  · rw [Nat.mod_eq_sub_mod (by omega), Nat.mod_eq_of_lt (by omega)]

theorem ticksToEvent_le_span {s : State} (hcounter : s.counter < s.cfg.span) (hcompare : s.compare < s.cfg.span) :
    s.ticksToEvent ≤ s.cfg.span := by
  rw [ticksToEvent_eq hcounter hcompare]
  split <;> omega

theorem one_le_ticksToEvent {s : State} (hcounter : s.counter < s.cfg.span) (hcompare : s.compare < s.cfg.span) :
    1 ≤ s.ticksToEvent := by
  rw [ticksToEvent_eq hcounter hcompare]
  split <;> omega

theorem ticksToEvent_of_counter_zero {s : State} (hzero : s.counter = 0) (hpos : 1 ≤ s.compare)
    (hcompare : s.compare < s.cfg.span) : s.ticksToEvent = s.compare := by
  rw [ticksToEvent_eq (by omega) hcompare, if_pos (by omega)]
  omega

/-- Of the first m values the counter takes, the m-th alone is COMPARE (41_timer_event.md R92). -/
theorem counter_add_mod_eq_compare_iff {s : State} (hcounter : s.counter < s.cfg.span)
    (hcompare : s.compare < s.cfg.span) {n : Nat} (hpos : 1 ≤ n) (hn : n ≤ s.ticksToEvent) :
    (s.counter + n) % s.cfg.span = s.compare ↔ n = s.ticksToEvent := by
  have hspan := hn.trans (ticksToEvent_le_span hcounter hcompare)
  rw [ticksToEvent_eq hcounter hcompare] at hn ⊢
  rw [mod_span_eq_ite (by omega)]
  split at hn <;> split <;> omega

/-! ### A run of any agents' steps -/

/-- `u` is `s` with n ticks counted: the timer runs on to the same COMPARE, and no event has happened. -/
structure State.Counted (s : State) (n : Nat) (u : State) : Prop where
  cfg : u.cfg = s.cfg
  run : u.run = true
  compare : u.compare = s.compare
  counter : u.counter = (s.counter + n) % s.cfg.span
  phase : u.phase = s.phase
  activeCh : u.activeCh = s.activeCh

/-- The next tick after n counted ones makes COUNTER `c0 + n + 1`. -/
theorem State.Counted.nextCount_eq {s u : State} {n : Nat} (h : s.Counted n u) :
    nextCount u = (s.counter + (n + 1)) % s.cfg.span := by
  rw [nextCount, h.counter, h.cfg, Nat.mod_add_mod, Nat.add_assoc]

/-- It matches exactly when it is the m-th (41_timer_event.md R92). -/
theorem State.Counted.nextCount_eq_compare_iff {s u : State} {n : Nat} (h : s.Counted n u)
    (hcounter : s.counter < s.cfg.span) (hcompare : s.compare < s.cfg.span) (hn : n < s.ticksToEvent) :
    nextCount u = u.compare ↔ n + 1 = s.ticksToEvent := by
  rw [h.nextCount_eq, h.compare]
  exact counter_add_mod_eq_compare_iff hcounter hcompare (Nat.le_add_left ..) hn

theorem State.Counted.tick {s u : State} {n : Nat} (h : s.Counted n u) :
    s.Counted (n + 1) (u.setCounter (nextCount u)) :=
  { h with counter := h.nextCount_eq }

/-- No tick has passed. -/
theorem State.Counted.zero {s : State} (hrun : s.run = true) (hcounter : s.counter < s.cfg.span) : s.Counted 0 s :=
  ⟨rfl, hrun, rfl, (Nat.mod_eq_of_lt hcounter).symm, rfl, rfl⟩

/-- The m-th tick runs EVENT with the counter cleared, an earlier one counts (41_timer_event.md R91, R92). -/
theorem State.Counted.exec_tick {s u : State} {n : Nat} (h : s.Counted n u) (hcfg : s.cfg.WellFormed)
    (hcounter : s.counter < s.cfg.span) (hcompare : s.compare < s.cfg.span) (hn : n < s.ticksToEvent) :
    (n + 1 = s.ticksToEvent → exec .tick u = exec .event (u.setCounter 0)) ∧
    (n + 1 < s.ticksToEvent → exec .tick u = .next (u.setCounter (nextCount u))) := by
  have hiff := h.nextCount_eq_compare_iff hcounter hcompare hn
  exact ⟨fun hm => exec_tick_of_match h.run (hiff.2 hm),
    fun hlt => exec_tick_of_ne (h.cfg ▸ hcfg) h.run (mt hiff.1 hlt.ne)⟩

/-- The timer and the sequencer of two states agree. -/
structure State.SameTimer (u t : State) : Prop where
  counter : t.counter = u.counter
  compare : t.compare = u.compare
  run : t.run = u.run
  phase : t.phase = u.phase
  activeCh : t.activeCh = u.activeCh

/-- But for reset, only an accepted INIT and a tick of a running timer write the timer or the sequencer
(40_host_commands.md R77, R85; 41_timer_event.md R91). -/
theorem AgentStep.timer_cases {u t : State} {a : Action} (h : AgentStep u a t) (ha : a ≠ .reset) :
    (u.SameTimer t ∧ (a = .tick → u.run = false)) ∨
    (∃ bytes pin addr port, a = .write u.cfg.blockBase bytes ∧ decodeBytes bytes = .ok (.init u.initCount pin addr) ∧
      u.initCount.toNat < u.cfg.nCh ∧ acceptInit u.initCount pin port u = .ok t) ∨
    (a = .tick ∧ u.run = true ∧ nextCount u ≠ u.compare ∧ t = u.setCounter (nextCount u)) ∨
    (a = .tick ∧ u.run = true ∧ nextCount u = u.compare ∧ event (u.setCounter 0) = .ok t) := by
  cases h with
  | initAccepted hdecode hch _ haccept => exact .inr (.inl ⟨_, _, _, _, rfl, hdecode, hch, haccept⟩)
  | tickCounted hrun hcount => exact .inr (.inr (.inl ⟨rfl, hrun, hcount, rfl⟩))
  | tickMatched hrun hmatch hevent => exact .inr (.inr (.inr ⟨rfl, hrun, hmatch, hevent⟩))
  | tickStopped hrun => exact .inl ⟨⟨rfl, rfl, rfl, rfl, rfl⟩, fun _ => hrun⟩
  | rejected e => exact .inl ⟨⟨by simp, by simp, by simp, by simp, by simp⟩, nofun⟩
  | angleStored _ _ _ hset =>
    obtain ⟨-, rfl⟩ := (setAngle_ok ..).1 hset
    exact .inl ⟨⟨rfl, rfl, rfl, rfl, rfl⟩, nofun⟩
  | gpioWritten _ hwrite =>
    obtain ⟨ht, -, -⟩ := writeGpioBit_agreeOffPins hwrite
    rw [ht]
    exact .inl ⟨⟨rfl, rfl, rfl, rfl, rfl⟩, nofun⟩
  | angleIgnored | statusWritten | statusRead => exact .inl ⟨⟨rfl, rfl, rfl, rfl, rfl⟩, nofun⟩
  | reset => exact absurd rfl ha

/-- What an agent's step does, the remaining steps are the same. -/
theorem AgentStep.pending_eq {u t : State} {a : Action} (h : AgentStep u a t) : t.pending = u.pending := by
  cases h with
  | rejected e => exact State.setFlag_pending e u
  | initAccepted _ _ _ haccept =>
    obtain ⟨-, rfl⟩ := (acceptInit_ok ..).1 haccept
    rfl
  | angleStored _ _ _ hset =>
    obtain ⟨-, rfl⟩ := (setAngle_ok ..).1 hset
    rfl
  | gpioWritten _ hwrite =>
    obtain ⟨ht, -, -⟩ := writeGpioBit_agreeOffPins hwrite
    rw [ht]
  | tickMatched _ _ hevent =>
    obtain ⟨sl, -, -, -, rfl⟩ := (event_ok ..).1 hevent
    rfl
  | angleIgnored | statusWritten | statusRead | tickStopped | tickCounted | reset => rfl

/-- An agent's step that leaves COMPARE counts if it is a tick before the m-th, and leaves the timer otherwise. -/
theorem AgentStep.counted {s u t : State} {a : Action} {n : Nat} (h : AgentStep u a t) (hu : s.Counted n u)
    (hcounter : s.counter < s.cfg.span) (hcompare : s.compare < s.cfg.span) (hpos : 1 ≤ s.compare)
    (hsame : t.compare = s.compare) (hn : n + [a].count .tick < s.ticksToEvent) :
    s.Counted (n + [a].count .tick) t := by
  have hreset : a ≠ .reset := by
    rintro rfl
    cases h
    exact absurd hsame (by simp; omega)
  have hcfg := h.cfg_eq.trans hu.cfg
  rcases h.timer_cases hreset with ⟨hst, htick⟩ | ⟨_, _, _, _, rfl, -, -, haccept⟩ | ⟨rfl, -, -, rfl⟩ | ⟨rfl, -, hmatch, -⟩
  · have hnotick : a ≠ .tick := fun ha => absurd (hu.run.symm.trans (htick ha)) nofun
    rw [List.count_singleton, beq_false_of_ne hnotick]
    exact ⟨hcfg, hst.run.trans hu.run, hsame, hst.counter.trans hu.counter, hst.phase.trans hu.phase,
      hst.activeCh.trans hu.activeCh⟩
  · obtain ⟨-, rfl⟩ := (acceptInit_ok ..).1 haccept
    exact ⟨hcfg, rfl, hsame, hu.counter, hu.phase, hu.activeCh⟩
  · exact hu.tick
  · replace hn : n + 1 < s.ticksToEvent := hn
    have hlast := (hu.nextCount_eq_compare_iff hcounter hcompare (by omega)).1 hmatch
    omega

/-- The interval law along a list of agents' steps, from any state counted so far (41_timer_event.md R92). -/
theorem run_counted {s u t : State} {n : Nat} {acts rest : List Action} (hu : s.Counted n u)
    (hcounter : s.counter < s.cfg.span) (hcompare : s.compare < s.cfg.span) (hpos : 1 ≤ s.compare)
    (hpending : u.pending = acts ++ rest)
    (hsame : ∀ (k : Nat) (v : State), k ≤ acts.length → core.run k u = .next v → v.compare = s.compare)
    (hrun : core.run acts.length u = .next t) (hn : n + acts.count .tick < s.ticksToEvent) :
    s.Counted (n + acts.count .tick) t ∧ t.pending = rest := by
  induction acts generalizing u n with
  | nil =>
    cases hrun
    exact ⟨hu, hpending⟩
  | cons a acts ih =>
    obtain ⟨v, hstep, hrest⟩ := core_run_succ_next _ _ _ hrun
    have hagent := agentStep_of_step hstep
    have haction : u.nextAction = a := by rw [State.nextAction, hpending]; rfl
    have htaken : u.taken.pending = acts ++ rest := by rw [State.taken, State.withPending_pending, hpending]; rfl
    rw [haction] at hagent
    have hcount : n + (a :: acts).count .tick = n + [a].count .tick + acts.count .tick := by
      rw [← List.singleton_append, List.count_append, Nat.add_assoc]
    rw [hcount] at hn ⊢
    have hv : s.Counted (n + [a].count .tick) v :=
      hagent.counted { hu with } hcounter hcompare hpos
        (hsame 1 v (Nat.le_add_left ..) ((core_run_one u).trans hstep)) (by omega)
    exact ih hv (hagent.pending_eq.trans htaken)
      (fun k w hk hw => hsame (k + 1) w (Nat.succ_le_succ hk) ((core_run_succ k u v hstep).trans hw)) hrest hn

/-- The tick at the head of the list after n counted ones: the m-th runs EVENT, an earlier one counts. -/
theorem State.Counted.step_tick {s t : State} {n : Nat} {later : List Action} (ht : s.Counted n t)
    (hcfg : s.cfg.WellFormed) (hcounter : s.counter < s.cfg.span) (hcompare : s.compare < s.cfg.span)
    (hn : n < s.ticksToEvent) (hpending : t.pending = .tick :: later) :
    (n + 1 = s.ticksToEvent → step t = exec .event { t with counter := 0, pending := later }) ∧
    (n + 1 < s.ticksToEvent →
      step t = .next { t with counter := (t.counter + 1) % s.cfg.span, pending := later }) := by
  have htaken : s.Counted n (t.withPending later) := { ht with }
  obtain ⟨hevent, hcounts⟩ := htaken.exec_tick hcfg hcounter hcompare hn
  have hstep : step t = exec .tick (t.withPending later) := step_of_pending_cons hpending
  refine ⟨fun hm => hstep.trans (hevent hm), fun hlt => ?_⟩
  rw [hstep, hcounts hlt, nextCount, htaken.cfg]
  rfl

/-- Settles O31: the steps of the list count the ticks, and the next tick is the m-th or an earlier one. -/
theorem intervalLaw : Obligations.IntervalLaw := by
  intro s t acts rest hcfg hrun hpos hcompare hcounter hpending hsame hend hlt
  obtain ⟨ht, hrest⟩ := run_counted (.zero hrun hcounter) hcounter hcompare hpos hpending hsame hend (by omega)
  rw [Nat.zero_add] at ht
  refine ⟨⟨ht.counter, ht.phase, ht.activeCh, ht.run⟩, ?_, fun hzero => ticksToEvent_of_counter_zero hzero hpos hcompare⟩
  rintro later rfl
  exact ht.step_tick hcfg hcounter hcompare hlt hrest

/-! ### The wrap (R93) -/

/-- A step from a counter below COMPARE to one at or above it, the timer running, is an accepted INIT
(41_timer_event.md R93). -/
theorem AgentStep.init_of_compare_le_counter {u t : State} {a : Action} (h : AgentStep u a t) (hu : u.Inv)
    (hbelow : u.run = true → u.counter < u.compare) (hrun : t.run = true) (hle : t.compare ≤ t.counter) :
    u.cfg.initCompare ≤ u.counter ∧ t.compare = u.cfg.initCompare ∧
      ∃ bytes ch pin addr, a = .write u.cfg.blockBase bytes ∧ decodeBytes bytes = .ok (.init ch pin addr) ∧
        t.initCount.toNat = u.initCount.toNat + 1 := by
  have hreset : a ≠ .reset := by
    rintro rfl
    cases h
    cases hrun
  rcases h.timer_cases hreset with ⟨hst, -⟩ | ⟨bytes, pin, addr, port, rfl, hdecode, hch, haccept⟩ |
    ⟨-, hurun, hne, rfl⟩ | ⟨-, -, -, hevent⟩
  · have hlt := hbelow (hst.run.symm.trans hrun)
    rw [hst.counter, hst.compare] at hle
    omega
  · obtain ⟨-, rfl⟩ := (acceptInit_ok ..).1 haccept
    exact ⟨hle, rfl, bytes, _, pin, addr, rfl, hdecode, initCount_succ_toNat hu.config hch⟩
  · have hlt := hbelow hurun
    obtain ⟨-, hspan⟩ := hu.widths
    have hcount : nextCount u = u.counter + 1 := Nat.mod_eq_of_lt (by omega)
    replace hle : u.compare ≤ nextCount u := hle
    omega
  · obtain ⟨sl, -, -, -, rfl⟩ := (event_ok ..).1 hevent
    have hpos := one_le_duration hu.config sl.angle.toNat
    replace hle : duration u.cfg sl.angle.toNat ≤ 0 := hle
    omega

/-- Settles O32: the interval law where COUNTER is at or past COMPARE, and the one step that leads there. -/
theorem counterWrap : Obligations.CounterWrap := by
  refine ⟨?_, fun s t hs hbelow hstep hrun hle => ?_⟩
  · intro s t acts rest hcfg hrun hpos hle hcounter hpending hsame hend hlt
    have hcompare : s.compare < s.cfg.span := hle.trans_lt hcounter
    have hm : s.ticksToEvent = s.cfg.span - s.counter + s.compare := by
      rw [ticksToEvent_eq hcounter hcompare, if_neg hle.not_gt]
    rw [← hm] at hlt ⊢
    obtain ⟨⟨hcount, hrest⟩, htick, -⟩ :=
      intervalLaw s t acts rest hcfg hrun hpos hcompare hcounter hpending hsame hend hlt
    exact ⟨⟨hcount.trans (mod_span_eq_ite (by omega)), hrest⟩, htick⟩
  · obtain ⟨hinit, hcompare, bytes, ch, pin, addr, haction, hdecode, hcount⟩ :=
      (agentStep_of_step hstep).init_of_compare_le_counter (taken_inv hs) hbelow hrun hle
    exact ⟨hinit, hcompare, bytes, _, ch, pin, addr, pending_of_nextAction_write haction, hdecode, hcount⟩

/-! ### A run of ticks alone -/

/-- With no step of another agent left, a run goes on with a tick (log 3). -/
theorem run_succ_of_pending_nil {s t : State} {j : Nat} (h : core.run j s = .next t) (hpending : t.pending = []) :
    core.run (j + 1) s = exec .tick t :=
  (core_run_add j 1 s t h).trans ((core_run_one t).trans (step_of_pending_nil t hpending))

/-- Ticks alone count and change nothing else. -/
theorem State.Counted.setCounter {s : State} (hrun : s.run = true) (n : Nat) :
    s.Counted n (s.setCounter ((s.counter + n) % s.cfg.span)) :=
  ⟨rfl, hrun, rfl, rfl, rfl, rfl⟩

/-- With no step of another agent left, the first m - 1 steps count (41_timer_event.md R92). -/
theorem run_of_lt_ticksToEvent {s : State} (hs : s.Inv) (hrun : s.run = true) (hpending : s.pending = []) {j : Nat}
    (hj : j < s.ticksToEvent) : core.run j s = .next (s.setCounter ((s.counter + j) % s.cfg.span)) := by
  obtain ⟨hcounter, hcompare⟩ := hs.widths
  induction j with
  | zero => rw [Nat.add_zero, Nat.mod_eq_of_lt hcounter]; rfl
  | succ j ih =>
    have hcounted : s.Counted j _ := .setCounter hrun j
    obtain ⟨-, hcounts⟩ := hcounted.exec_tick hs.config hcounter hcompare (by omega)
    rw [run_succ_of_pending_nil (ih (by omega)) hpending, hcounts hj, hcounted.nextCount_eq]
    rfl

/-- The m-th step is EVENT with the counter cleared (41_timer_event.md R92). -/
theorem run_ticksToEvent {s : State} (hs : s.Inv) (hrun : s.run = true) (hpending : s.pending = []) :
    core.run s.ticksToEvent s = exec .event (s.setCounter 0) := by
  obtain ⟨hcounter, hcompare⟩ := hs.widths
  have hpos := one_le_ticksToEvent hcounter hcompare
  obtain ⟨j, hj⟩ : ∃ j, s.ticksToEvent = j + 1 := ⟨s.ticksToEvent - 1, by omega⟩
  have hcounted : s.Counted j _ := .setCounter hrun j
  obtain ⟨hevent, -⟩ := hcounted.exec_tick hs.config hcounter hcompare (by omega)
  rw [hj, run_succ_of_pending_nil (run_of_lt_ticksToEvent hs hrun hpending (by omega)) hpending, hevent hj.symm]
  rfl

/-- Settles O39: the event of the interval law, after at most 2^W ticks. -/
theorem eventsRecur : Obligations.EventsRecur := by
  intro s hs hrun hpending
  obtain ⟨hcounter, hcompare⟩ := hs.widths
  have hevent := exec_event_of_inv (setCounter_inv hs hrun (Nat.two_pow_pos _))
  exact ⟨s.ticksToEvent, _, one_le_ticksToEvent hcounter hcompare, ticksToEvent_le_span hcounter hcompare,
    (run_ticksToEvent hs hrun hpending).trans hevent, hevent, hrun, afterEvent_phase_ne _⟩

/-- A running timer of the invariant at COUNTER 0 with no step of another agent left: a segment begins, of COMPARE
ticks (41_timer_event.md R92). -/
structure State.SegmentStart (s : State) : Prop where
  inv : s.Inv
  run : s.run = true
  pending : s.pending = []
  counter : s.counter = 0

/-- The segment counts up from 0 (41_timer_event.md R92). -/
theorem State.SegmentStart.run_of_lt {s : State} (hs : s.SegmentStart) {j : Nat} (hj : j < s.compare) :
    core.run j s = .next (s.setCounter j) := by
  obtain ⟨-, hcompare⟩ := hs.inv.widths
  have hm := ticksToEvent_of_counter_zero hs.counter (hs.inv.compareSet hs.run) hcompare
  rw [run_of_lt_ticksToEvent hs.inv hs.run hs.pending (hm ▸ hj), hs.counter, Nat.zero_add,
    Nat.mod_eq_of_lt (hj.trans hcompare)]

/-- The segment ends after COMPARE ticks, in the next event (41_timer_event.md R92). -/
theorem State.SegmentStart.run_compare {s : State} (hs : s.SegmentStart) : core.run s.compare s = .next s.afterEvent := by
  obtain ⟨-, hcompare⟩ := hs.inv.widths
  have hm := ticksToEvent_of_counter_zero hs.counter (hs.inv.compareSet hs.run) hcompare
  have hzero : s.setCounter 0 = s := by rw [← hs.counter]; rfl
  have hend := run_ticksToEvent hs.inv hs.run hs.pending
  rwa [hm, hzero, exec_event_of_inv hs.inv] at hend

theorem State.SegmentStart.afterEvent {s : State} (hs : s.SegmentStart) : s.afterEvent.SegmentStart :=
  ⟨afterEvent_inv hs.inv hs.run, hs.run, hs.pending, hs.counter⟩

/-! ### A slot (R104) -/

/-- The two events of a slot are of one channel, so they load the same duration (41_timer_event.md R104). -/
theorem afterEvent_segmentTicks_of_high {s : State} (h : s.phase = .high) :
    s.afterEvent.segmentTicks = s.segmentTicks := by
  obtain ⟨-, hsame⟩ := afterEvent_of_high h
  simp [State.segmentTicks, State.activeSlot, hsame]

/-- Settles O33: the slot's two segments, each from its event to the next. -/
theorem slotTiming : Obligations.SlotTiming := by
  intro s sl hs hrun hpending hphase hcounter hsl
  have hstart : s.SegmentStart := ⟨hs, hrun, hpending, hcounter⟩
  have hslot := activeSlot_eq hsl
  obtain ⟨-, -, hport⟩ := hs.activeSlot_spec
  rw [hslot] at hport
  obtain ⟨hlow, hsame⟩ := afterEvent_of_high hphase
  obtain ⟨hhigh, hnext⟩ := afterEvent_twice_of_high hs.config hphase
  have hd : duration s.cfg sl.angle.toNat = s.afterEvent.compare := by rw [← hslot]; rfl
  have hd' : s.afterEvent.compare = s.afterEvent.afterEvent.compare := (afterEvent_segmentTicks_of_high hphase).symm
  rw [hd]
  have ht := hstart.afterEvent
  have hu := ht.afterEvent
  refine ⟨s.afterEvent, s.afterEvent.afterEvent, exec_event_of_inv hs, fun j hj => ht.run_of_lt hj, ht.run_compare,
    fun j hj => hu.run_of_lt (hd' ▸ hj), ?_, hhigh, hnext, fun hinit => ⟨?_, ?_⟩⟩
  · rw [hd', exec_event_of_inv hu.inv]
    exact hu.run_compare
  · rw [afterEvent_outBit hsl hport, if_pos ⟨hinit, rfl, rfl⟩, hphase]
    rfl
  · rw [afterEvent_outBit (s := s.afterEvent) (sl := sl) (by rw [hsame]; exact hsl) (by simpa [hsame] using hport),
      hlow, hsame, if_pos ⟨hinit, rfl, rfl⟩]
    rfl

/-! ### Start-up (R102) -/

/-- The state that the first accepted INIT leaves: channel 0 bound to its pin, its angle the reset value, and the timer
started at 0 with COMPARE = INIT_COMPARE (40_host_commands.md R78, 41_timer_event.md R102). -/
theorem step_init_after_reset {c : Config} {w : Word} {pin : Pin} {addr : RegAddr} {port : Nat} {pair : PortAddr}
    (hcfg : c.WellFormed) (hdecode : decode w = .init 0 pin addr) (hpair : c.ports[port]? = some pair)
    (haddr : pair.dirAddr = addr) :
    ∃ t, step ((State.resetWith c).withPending [commandWrite c w]) = .next t ∧ t.SegmentStart ∧ t.cfg = c ∧
      t.compare = c.initCompare ∧ t.phase = .low ∧ t.activeCh = 0 ∧ 0 < t.initCount.toNat ∧
      t.slot? 0 = some ⟨pin, BitVec.ofNat 3 port, BitVec.ofNat 8 c.angleReset⟩ ∧ (BitVec.ofNat 3 port).toNat = port := by
  have hreset := resetSatisfiesTheInvariant c hcfg
  have ⟨⟨hpos, _⟩, _⟩ := hcfg
  obtain ⟨t, hexec, ⟨sl, hsl, hslt⟩, hport, -, -, -, hcount, ht⟩ :=
    acceptedInitEffect (State.resetWith c) 0 pin addr port pair hcfg hreset.shape hpos rfl hpair haddr
  have hangle : sl = ⟨0, 0, BitVec.ofNat 8 c.angleReset⟩ := List.eq_of_mem_replicate (List.mem_of_getElem? hsl)
  have hdecoded : decodeBytes (bytesOfWord w) = .ok (.init 0 pin addr) := (decodeBytes_bytesOfWord w).trans (hdecode ▸ rfl)
  have hinv : t.Inv := (agentStep_of_exec_word hdecoded hexec).inv hreset
  have hstep : step ((State.resetWith c).withPending [commandWrite c w]) = .next t :=
    (step_of_commandWrite rfl).trans (hdecode ▸ hexec)
  exact ⟨t, hstep, ⟨hinv, congrArg State.run ht, congrArg State.pending ht, congrArg State.counter ht⟩,
    congrArg State.cfg ht, congrArg State.compare ht, congrArg State.phase ht, congrArg State.activeCh ht,
    hcount ▸ Nat.succ_pos _, hslt.trans (hangle ▸ rfl), hport⟩

/-- Settles O37: the accepted INIT starts a segment of INIT_COMPARE ticks, which ends in channel 0's Low event. -/
theorem firstEventAfterReset : Obligations.FirstEventAfterReset := by
  intro c w pin addr port pair hcfg hdecode hpair haddr
  obtain ⟨t, hstep, hstart, hc, hcompare, hphase, hactive, hinit, hsl, hport⟩ :=
    step_init_after_reset hcfg hdecode hpair haddr
  subst hc
  replace hstep := (core_run_one _).trans hstep
  have hslot := hsl
  rw [show 0 = t.activeCh.toNat from congrArg BitVec.toNat hactive.symm] at hslot
  obtain ⟨hhigh, hnext⟩ := afterEvent_of_low hcfg hphase
  refine ⟨fun j hj => ⟨t.setCounter j, ?_, rfl, hcompare, hstart.run, hactive, hphase⟩,
    t.afterEvent, ?_, hstart.counter, ?_, ?_, hhigh, ?_⟩
  · rw [core_run_add 1 j _ t hstep]
    exact hstart.run_of_lt (hcompare ▸ hj)
  · rw [core_run_add 1 _ _ t hstep, ← hcompare]
    exact hstart.run_compare
  · rw [State.afterEvent_compare, State.segmentTicks, activeSlot_eq hslot, angleReset_toNat hcfg]
  · rw [hnext, hactive]
    rfl
  · obtain ⟨-, -, hbound⟩ := hstart.inv.activeSlot_spec
    rw [activeSlot_eq hslot] at hbound
    rw [afterEvent_outBit hslot hbound, hactive, hphase, if_pos ⟨hinit, hport.symm, rfl⟩]
    rfl

/-! ### A timer that no INIT has started (R109) -/

/-- The timer, the sequencer and the slot table of two states agree. -/
structure State.SameScheduler (u t : State) : Prop extends State.SameTimer u t where
  slots : t.slots = u.slots
  initCount : t.initCount = u.initCount

/-- With RUN = 0 no channel is initialized, so no SETANG is accepted, and no tick counts: only an accepted INIT and reset
write the scheduler, and only a host GPIO write the pins (41_timer_event.md R109, 70_reset_and_hazards.md R149). -/
theorem AgentStep.stopped_cases {u t : State} {a : Action} (h : AgentStep u a t) (hu : u.Inv) (hrun : u.run = false)
    (ha : a ≠ .reset) :
    (∃ bytes pin addr port, a = .write u.cfg.blockBase bytes ∧ decodeBytes bytes = .ok (.init u.initCount pin addr) ∧
      u.initCount.toNat < u.cfg.nCh ∧ lookupPort u.cfg addr = some port) ∨
    (u.SameScheduler t ∧ ((∀ reg port bit v, a ≠ .gpio reg port bit v) → t.dir = u.dir ∧ t.out = u.out)) := by
  have hcount : u.initCount.toNat = 0 := by
    have hzero := mt hu.running.2 (by simp [hrun])
    omega
  cases h with
  | initAccepted hdecode hch hport _ => exact .inl ⟨_, _, _, _, rfl, hdecode, hch, hport⟩
  | rejected e => exact .inr ⟨⟨⟨by simp, by simp, by simp, by simp, by simp⟩, by simp, by simp⟩, by simp⟩
  | gpioWritten _ hwrite =>
    obtain ⟨ht, -, -⟩ := writeGpioBit_agreeOffPins hwrite
    rw [ht]
    exact .inr ⟨⟨⟨rfl, rfl, rfl, rfl, rfl⟩, rfl, rfl⟩, fun hno => absurd rfl (hno _ _ _ _)⟩
  | angleStored _ hch | angleIgnored _ hch => omega
  | tickCounted htrue | tickMatched htrue => exact absurd (hrun.symm.trans htrue) nofun
  | statusWritten | statusRead | tickStopped => exact .inr ⟨⟨⟨rfl, rfl, rfl, rfl, rfl⟩, rfl, rfl⟩, fun _ => ⟨rfl, rfl⟩⟩
  | reset => exact absurd rfl ha

/-- An action other than a tick comes from the list. -/
theorem pending_of_nextAction_ne_tick {s : State} (h : s.nextAction ≠ .tick) :
    s.pending = s.nextAction :: s.pending.tail := by
  rcases hp : s.pending with _ | ⟨a, rest⟩ <;> simp_all [State.nextAction]

/-- Settles O55: the step is neither of the two that write the scheduler. -/
theorem onlyAnAcceptedInitStartsTheScheduler : Obligations.OnlyAnAcceptedInitStartsTheScheduler := by
  intro s t hs hrun hreset hnoinit hstep
  rcases (agentStep_of_step hstep).stopped_cases (taken_inv hs) hrun (nextAction_ne_reset hreset) with
    ⟨bytes, pin, addr, port, haction, hdecode, hch, hport⟩ | ⟨hsame, hpins⟩
  · exact absurd ⟨bytes, _, _, pin, addr, port, pending_of_nextAction_write haction, hdecode, hch, rfl, hport⟩ hnoinit
  · refine ⟨hsame.run.trans hrun, hsame.slots, hsame.initCount, hsame.activeCh, hsame.phase, hsame.counter,
      hsame.compare, fun hnogpio => hpins fun reg port bit v haction => hnogpio reg port bit v s.pending.tail ?_⟩
    rw [← haction]
    exact pending_of_nextAction_ne_tick (by simp [haction])

end Sys2Proof.Machine

/-!
PROOFS. A sweep (41_timer_event.md R105): the slots of the channels one after another, each in its two segments, so that
every tick of the sweep lies in one segment of one channel. What holds of the sweep is read off that segment's state.
-/

namespace Sys2Proof.Machine

/-! ### The slots of a sweep -/

/-- A state about to have the High event of channel 0, no host step falling in the sweep (41_timer_event.md R105). -/
structure State.SweepStart (s : State) : Prop extends State.SegmentStart s where
  phase : s.phase = .high
  activeCh : s.activeCh = 0

theorem State.SegmentStart.afterEvents {s : State} (hs : s.SegmentStart) (k : Nat) :
    (State.afterEvent^[k] s).SegmentStart := by
  induction k with
  | zero => exact hs
  | succ k ih =>
    rw [Function.iterate_succ_apply']
    exact ih.afterEvent

@[simp] theorem pulseStart_zero (s : State) : s.pulseStart 0 = 0 := rfl

/-- A pulse starts where the slot before it ends (41_timer_event.md R104). -/
theorem pulseStart_succ {s : State} {c : Nat} {sl : Slot} (hsl : s.slot? c = some sl) :
    s.pulseStart (c + 1) = s.pulseStart c + 2 * duration s.cfg sl.angle.toNat := by
  have hget : s.slots[c]? = some sl := hsl
  simp [State.pulseStart, List.take_add_one, hget]

/-- The last slot ends the sweep (41_timer_event.md R105). -/
theorem pulseStart_nCh {s : State} (hs : s.Inv) : s.pulseStart s.cfg.nCh = s.sweepTicks := by
  obtain ⟨hlen, -, -⟩ := hs.shape
  rw [State.pulseStart, ← hlen, List.take_length, State.sweepTicks]

/-- The pulses start in the order of the channels (41_timer_event.md R105). -/
theorem pulseStart_mono (s : State) : Monotone s.pulseStart :=
  monotone_nat_of_le_succ fun c => by simp [State.pulseStart, List.take_add_one]

/-- A slot lies before every later one. -/
theorem pulseStart_add_le {s : State} {c d : Nat} {sl : Slot} (hsl : s.slot? c = some sl) (hcd : c < d) :
    s.pulseStart c + 2 * duration s.cfg sl.angle.toNat ≤ s.pulseStart d :=
  pulseStart_succ hsl ▸ pulseStart_mono s hcd

/-- Every tick of the slots before channel c's lies in one of them. -/
theorem exists_slot_of_lt_pulseStart {s : State} {c j : Nat} (hj : j < s.pulseStart c) :
    ∃ d < c, s.pulseStart d ≤ j ∧ j < s.pulseStart (d + 1) := by
  induction c with
  | zero => exact absurd hj (Nat.not_lt_zero j)
  | succ c ih =>
    rcases Nat.lt_or_ge j (s.pulseStart c) with hlt | hge
    · obtain ⟨d, hd, hrange⟩ := ih hlt
      exact ⟨d, hd.trans c.lt_succ_self, hrange⟩
    · exact ⟨c, c.lt_succ_self, hge, hj⟩

/-! ### The states of a sweep -/

section SweepStart
variable {s : State} (hs : s.SweepStart)
include hs

/-- Event 2c + 1 of the sweep is channel c's High event (41_timer_event.md R103). -/
theorem State.SweepStart.slotStart {c : Nat} (hc : c < s.cfg.nCh) :
    (State.afterEvent^[2 * c] s).phase = .high ∧ (State.afterEvent^[2 * c] s).activeCh.toNat = c := by
  obtain ⟨hphase, hch⟩ := afterEvents_even hs.inv hs.phase c
  rw [hs.activeCh, show (0 : Chan).toNat = 0 from rfl, Nat.zero_add, Nat.mod_eq_of_lt hc] at hch
  exact ⟨hphase, hch⟩

/-- After it the channel is the same and the phase Low (41_timer_event.md R95). -/
theorem State.SweepStart.highSegment {c : Nat} (hc : c < s.cfg.nCh) :
    (State.afterEvent^[2 * c + 1] s).phase = .low ∧ (State.afterEvent^[2 * c + 1] s).activeCh.toNat = c := by
  obtain ⟨hphase, hch⟩ := hs.slotStart hc
  obtain ⟨hlow, hsame⟩ := afterEvent_of_high hphase
  rw [Function.iterate_succ_apply']
  exact ⟨hlow, hsame ▸ hch⟩

/-- Both segments of channel c's slot last the duration of its angle (41_timer_event.md R104). -/
theorem State.SweepStart.segmentTicks {c : Nat} (hc : c < s.cfg.nCh) {sl : Slot} (hsl : s.slot? c = some sl) :
    (State.afterEvent^[2 * c + 1] s).compare = duration s.cfg sl.angle.toNat ∧
      (State.afterEvent^[2 * c + 2] s).compare = duration s.cfg sl.angle.toNat := by
  obtain ⟨hphase, hch⟩ := hs.slotStart hc
  have hactive : (State.afterEvent^[2 * c] s).activeSlot = sl := activeSlot_eq (by rw [hch, afterEvents_slot?, hsl])
  have hticks : (State.afterEvent^[2 * c] s).segmentTicks = duration s.cfg sl.angle.toNat := by
    rw [State.segmentTicks, hactive, afterEvents_cfg]
  rw [Function.iterate_succ_apply', Function.iterate_succ_apply', Function.iterate_succ_apply']
  exact ⟨hticks, (afterEvent_segmentTicks_of_high hphase).trans hticks⟩

/-- From channel 0's High event to channel c's there are the slots in between (41_timer_event.md R105). -/
theorem State.SweepStart.run_pulseStart {c : Nat} (hc : c ≤ s.cfg.nCh) :
    core.run (s.pulseStart c) s.afterEvent = .next (State.afterEvent^[2 * c + 1] s) := by
  induction c with
  | zero => rfl
  | succ c ih =>
    obtain ⟨-, sl, hsl⟩ := exists_slot hs.inv.shape hc
    obtain ⟨hhigh, hlow⟩ := hs.segmentTicks hc hsl
    have hfirst := (hs.toSegmentStart.afterEvents (2 * c + 1)).run_compare
    have hsecond := (hs.toSegmentStart.afterEvents (2 * c + 2)).run_compare
    rw [hhigh, ← Function.iterate_succ_apply' State.afterEvent] at hfirst
    rw [hlow, ← Function.iterate_succ_apply' State.afterEvent] at hsecond
    rw [pulseStart_succ hsl, Nat.two_mul, core_run_add _ _ _ _ (ih (Nat.le_of_succ_le hc)),
      core_run_add _ _ _ _ hfirst]
    exact hsecond

/-- A tick of the sweep stands i ticks into a segment of a channel's slot: the first one, between its High and its Low
event, or the second one, up to the next channel's event (41_timer_event.md R104, R105). -/
theorem State.SweepStart.run_cases {j : Nat} (hj : j < s.sweepTicks) :
    ∃ c sl i, c < s.cfg.nCh ∧ s.slot? c = some sl ∧ i < duration s.cfg sl.angle.toNat ∧
      ((j = s.pulseStart c + i ∧ core.run j s.afterEvent = .next ((State.afterEvent^[2 * c + 1] s).setCounter i)) ∨
       (j = s.pulseStart c + duration s.cfg sl.angle.toNat + i ∧
         core.run j s.afterEvent = .next ((State.afterEvent^[2 * c + 2] s).setCounter i))) := by
  rw [← pulseStart_nCh hs.inv] at hj
  obtain ⟨c, hc, hge, hlt⟩ := exists_slot_of_lt_pulseStart hj
  obtain ⟨-, sl, hsl⟩ := exists_slot hs.inv.shape hc
  obtain ⟨hhigh, hlow⟩ := hs.segmentTicks hc hsl
  have hstart := hs.run_pulseStart hc.le
  have hfirst := hs.toSegmentStart.afterEvents (2 * c + 1)
  rw [pulseStart_succ hsl] at hlt
  rcases Nat.lt_or_ge j (s.pulseStart c + duration s.cfg sl.angle.toNat) with hseg | hseg
  · obtain ⟨i, rfl⟩ := Nat.exists_eq_add_of_le hge
    have hi : i < duration s.cfg sl.angle.toNat := by omega
    exact ⟨c, sl, i, hc, hsl, hi, .inl ⟨rfl, (core_run_add _ _ _ _ hstart).trans (hfirst.run_of_lt (hhigh ▸ hi))⟩⟩
  · obtain ⟨i, rfl⟩ := Nat.exists_eq_add_of_le hseg
    have hi : i < duration s.cfg sl.angle.toNat := by omega
    have hevent := hfirst.run_compare
    rw [hhigh, ← Function.iterate_succ_apply' State.afterEvent] at hevent
    have hsecond := hs.toSegmentStart.afterEvents (2 * c + 2)
    refine ⟨c, sl, i, hc, hsl, hi, .inr ⟨rfl, ?_⟩⟩
    rw [Nat.add_assoc, core_run_add _ _ _ _ hstart, core_run_add _ _ _ _ hevent]
    exact hsecond.run_of_lt (hlow ▸ hi)

/-- After the last slot the sequencer is back at channel 0's High event (41_timer_event.md R96). -/
theorem State.SweepStart.after_sweep :
    State.afterEvent^[2 * s.cfg.nCh] s =
      { s with out := (State.afterEvent^[2 * s.cfg.nCh] s).out
               compare := (State.afterEvent^[2 * s.cfg.nCh] s).compare } := by
  obtain ⟨hphase, hch⟩ := afterEvents_even hs.inv hs.phase s.cfg.nCh
  rw [Nat.add_mod_right, Nat.mod_eq_of_lt hs.inv.activeCh_lt] at hch
  conv_lhs => rw [afterEvents_frame, hphase, BitVec.eq_of_toNat_eq hch, ← hs.phase]

end SweepStart

/-- Settles O34: channel 0's next High event is event 2 N_CH + 1, and within the sweep a Low phase with COUNTER 0 is the
start of a later channel's pulse. -/
theorem sweepTiming : Obligations.SweepTiming := by
  intro s hinv hrun hpending hphase hactive hcounter
  have hs : s.SweepStart := ⟨⟨hinv, hrun, hpending, hcounter⟩, hphase, hactive⟩
  refine ⟨s.afterEvent, State.afterEvent^[2 * s.cfg.nCh + 1] s, exec_event_of_inv hinv, ?_, ?_, fun j hpos hj => ?_⟩
  · rw [← pulseStart_nCh hinv]
    exact hs.run_pulseStart le_rfl
  · rw [Function.iterate_succ_apply', hs.after_sweep]
    rfl
  · obtain ⟨c, sl, i, hc, -, -, ⟨hji, hu⟩ | ⟨-, hu⟩⟩ := hs.run_cases hj
    · refine ⟨_, hu, ?_⟩
      rintro ⟨rfl, hch, -⟩
      obtain ⟨-, hodd⟩ := hs.highSegment hc
      replace hch : (State.afterEvent^[2 * c + 1] s).activeCh = 0 := hch
      obtain rfl : 0 = c := by rw [← hodd, hch]; rfl
      exact hpos.ne' hji
    · obtain ⟨hhigh, -⟩ := afterEvents_even hinv hphase (c + 1)
      refine ⟨_, hu, ?_⟩
      rintro ⟨-, -, hlow⟩
      exact absurd (hhigh.symm.trans hlow) nofun

/-! ### The pins in a sweep -/

/-- The output bit that channel c's slot names (10_state.md R16, R17); 0 where the table has no such slot. -/
def State.channelBit (s : State) (c : Nat) : Bool :=
  match s.slot? c with
  | some sl => s.outBit sl.port.toNat sl.pin.toNat
  | none => false

theorem channelBit_of_slot {s : State} {c : Nat} {sl : Slot} (h : s.slot? c = some sl) :
    s.channelBit c = s.outBit sl.port.toNat sl.pin.toNat := by
  rw [State.channelBit, h]

/-- No two initialized channels are on one pin (the proviso of 41_timer_event.md R105). -/
def State.PinsDistinct (s : State) : Prop :=
  ∀ c d slc sld, c < s.initCount.toNat → d < s.initCount.toNat → s.slot? c = some slc → s.slot? d = some sld →
    slc.port = sld.port → slc.pin = sld.pin → c = d

theorem State.PinsDistinct.afterEvents {s : State} (h : s.PinsDistinct) (k : Nat) :
    (State.afterEvent^[k] s).PinsDistinct := by
  rw [afterEvents_frame]
  exact h

/-- With no two channels on one pin, an event writes the active channel's bit alone (43_gpio_toggle.md R123). -/
theorem afterEvent_channelBit {s : State} (hs : s.Inv) (hpins : s.PinsDistinct) {d : Nat}
    (hd : d < s.initCount.toNat) :
    s.afterEvent.channelBit d = if d = s.activeCh.toNat then s.phase.bit else s.channelBit d := by
  obtain ⟨hsl, -, hport⟩ := hs.activeSlot_spec
  obtain ⟨-, sld, hsld⟩ := exists_slot hs.shape (hd.trans_le hs.count)
  rw [channelBit_of_slot (s := s.afterEvent) hsld, channelBit_of_slot hsld, afterEvent_outBit hsl hport]
  refine if_congr ⟨fun ⟨hinit, hp, hb⟩ => ?_, fun hactive => ?_⟩ rfl rfl
  · exact hpins d _ sld _ hd hinit hsld hsl (BitVec.eq_of_toNat_eq hp) (BitVec.eq_of_toNat_eq hb)
  · subst hactive
    obtain rfl := Option.some.inj (hsl.symm.trans hsld)
    exact ⟨hd, rfl, rfl⟩

section pins
variable {s : State} (hs : s.SweepStart) (hpins : s.PinsDistinct) {d : Nat} (hd : d < s.initCount.toNat)
include hs hpins hd

/-- The bits along the events of a sweep, one event at a time. -/
theorem State.SweepStart.channelBit_succ (k : Nat) :
    (State.afterEvent^[k + 1] s).channelBit d =
      if d = (State.afterEvent^[k] s).activeCh.toNat then (State.afterEvent^[k] s).phase.bit
      else (State.afterEvent^[k] s).channelBit d := by
  rw [Function.iterate_succ_apply']
  exact afterEvent_channelBit (hs.toSegmentStart.afterEvents k).inv (hpins.afterEvents k)
    (by rwa [afterEvents_initCount])

/-- Channel c's High event raises its bit. -/
theorem State.SweepStart.channelBit_highSegment {c : Nat} (hc : c < s.cfg.nCh) :
    (State.afterEvent^[2 * c + 1] s).channelBit d = (decide (d = c) || (State.afterEvent^[2 * c] s).channelBit d) := by
  obtain ⟨hphase, hch⟩ := hs.slotStart hc
  rw [hs.channelBit_succ hpins hd, hphase, hch]
  by_cases heq : d = c <;> simp [heq, Phase.bit]

/-- Its Low event lowers it again. -/
theorem State.SweepStart.channelBit_lowSegment {c : Nat} (hc : c < s.cfg.nCh) :
    (State.afterEvent^[2 * c + 2] s).channelBit d = (!decide (d = c) && (State.afterEvent^[2 * c] s).channelBit d) := by
  obtain ⟨hphase, hch⟩ := hs.highSegment hc
  rw [hs.channelBit_succ hpins hd, hphase, hch, hs.channelBit_highSegment hpins hd hc]
  by_cases heq : d = c <;> simp [heq, Phase.bit]

/-- Between the slots no bit is 1 if none was before the sweep (41_timer_event.md R105). -/
theorem State.SweepStart.channelBit_slotStart (hlow : s.channelBit d = false) {c : Nat} (hc : c ≤ s.cfg.nCh) :
    (State.afterEvent^[2 * c] s).channelBit d = false := by
  induction c with
  | zero => exact hlow
  | succ c ih =>
    rw [Nat.mul_succ, hs.channelBit_lowSegment hpins hd hc, ih (Nat.le_of_succ_le hc), Bool.and_false]

end pins

/-- No two slots share a tick. -/
theorem eq_of_mem_slots {s : State} {c d j : Nat} {slc sld : Slot} (hslc : s.slot? c = some slc)
    (hsld : s.slot? d = some sld) (hgec : s.pulseStart c ≤ j)
    (hltc : j < s.pulseStart c + 2 * duration s.cfg slc.angle.toNat) (hged : s.pulseStart d ≤ j)
    (hltd : j < s.pulseStart d + 2 * duration s.cfg sld.angle.toNat) : c = d := by
  rcases Nat.lt_trichotomy c d with hlt | heq | hlt
  · have hafter := pulseStart_add_le hslc hlt
    omega
  · exact heq
  · have hafter := pulseStart_add_le hsld hlt
    omega

/-- What the pins show at tick j of a sweep of `s`, in the state `u`: j lies in the slot of a channel c, in its first
segment with c's bit the one that is 1, or in its second segment with no bit 1 (41_timer_event.md R104, R105). -/
inductive State.SweepPins (s : State) (j : Nat) (u : State) : Prop
  | first {c : Nat} {sl : Slot} (hsl : s.slot? c = some sl) (hphase : u.phase = .low) (hactive : u.activeCh.toNat = c)
      (hge : s.pulseStart c ≤ j) (hlt : j < s.pulseStart c + duration s.cfg sl.angle.toNat)
      (hbits : ∀ d < s.initCount.toNat, u.channelBit d = decide (d = c))
  | second {c : Nat} {sl : Slot} (hsl : s.slot? c = some sl) (hphase : u.phase = .high)
      (hge : s.pulseStart c + duration s.cfg sl.angle.toNat ≤ j)
      (hlt : j < s.pulseStart c + 2 * duration s.cfg sl.angle.toNat)
      (hbits : ∀ d < s.initCount.toNat, u.channelBit d = false)

theorem State.SweepStart.run_sweepPins {s : State} (hs : s.SweepStart) (hpins : s.PinsDistinct)
    (hlow : ∀ d < s.initCount.toNat, s.channelBit d = false) {j : Nat} (hj : j < s.sweepTicks) :
    ∃ u, core.run j s.afterEvent = .next u ∧ (∀ d, u.slot? d = s.slot? d) ∧ s.SweepPins j u := by
  obtain ⟨c, sl, i, hc, hsl, hi, ⟨rfl, hu⟩ | ⟨rfl, hu⟩⟩ := hs.run_cases hj
  · obtain ⟨hphase, hactive⟩ := hs.highSegment hc
    refine ⟨_, hu, afterEvents_slot? s _, .first hsl hphase hactive (by omega) (by omega) fun d hd => ?_⟩
    have hbit := hs.channelBit_highSegment hpins hd hc
    rwa [hs.channelBit_slotStart hpins hd (hlow d hd) hc.le, Bool.or_false] at hbit
  · obtain ⟨hphase, -⟩ := afterEvents_even hs.inv hs.phase (c + 1)
    exact ⟨_, hu, afterEvents_slot? s _, .second hsl hphase (by omega) (by omega) fun d hd =>
      hs.channelBit_slotStart hpins hd (hlow d hd) (c := c + 1) hc⟩

section SweepPins
variable {s u : State} {j : Nat} (h : s.SweepPins j u)
include h

/-- A channel's bit is 1 exactly in its pulse (41_timer_event.md R105). -/
theorem State.SweepPins.channelBit_iff {d : Nat} {sld : Slot} (hd : d < s.initCount.toNat)
    (hsld : s.slot? d = some sld) :
    u.channelBit d = true ↔ s.pulseStart d ≤ j ∧ j < s.pulseStart d + duration s.cfg sld.angle.toNat := by
  cases h with
  | first hsl _ _ hge hlt hbits =>
    rw [hbits d hd, decide_eq_true_iff]
    refine ⟨?_, fun ⟨hged, hltd⟩ => eq_of_mem_slots hsld hsl hged (by omega) hge (by omega)⟩
    rintro rfl
    obtain rfl := Option.some.inj (hsl.symm.trans hsld)
    exact ⟨hge, hlt⟩
  | second hsl _ hge hlt hbits =>
    rw [hbits d hd]
    refine ⟨nofun, fun ⟨hged, hltd⟩ => ?_⟩
    obtain rfl := eq_of_mem_slots hsld hsl hged (by omega) (by omega) hlt
    obtain rfl := Option.some.inj (hsl.symm.trans hsld)
    omega

/-- No two channels' bits are 1 together (41_timer_event.md R105). -/
theorem State.SweepPins.channelBit_unique {c d : Nat} (hc : c < s.initCount.toNat) (hd : d < s.initCount.toNat)
    (hcbit : u.channelBit c = true) (hdbit : u.channelBit d = true) : c = d := by
  cases h with
  | first _ _ _ _ _ hbits =>
    rw [hbits c hc, decide_eq_true_iff] at hcbit
    rw [hbits d hd, decide_eq_true_iff] at hdbit
    exact hcbit.trans hdbit.symm
  | second _ _ _ _ hbits => exact absurd ((hbits c hc).symm.trans hcbit) nofun

/-- While the phase is Low the active channel's bit is 1 (41_timer_event.md R105). -/
theorem State.SweepPins.channelBit_of_low (hphase : u.phase = .low) (hactive : u.activeCh.toNat < s.initCount.toNat) :
    u.channelBit u.activeCh.toNat = true := by
  cases h with
  | first _ _ hc _ _ hbits => rw [hbits _ hactive, hc, decide_eq_true_iff]
  | second _ hhigh => exact absurd (hhigh.symm.trans hphase) nofun

/-- While the phase is High no channel's bit is 1 (41_timer_event.md R105). -/
theorem State.SweepPins.channelBit_of_high (hphase : u.phase = .high) {c : Nat} (hc : c < s.initCount.toNat) :
    u.channelBit c = false := by
  cases h with
  | first _ hlow => exact absurd (hlow.symm.trans hphase) nofun
  | second _ _ _ _ hbits => exact hbits c hc

end SweepPins

/-- Settles O35: what `SweepPins` says of every tick, in terms of the bits that the slots name. -/
theorem sweepPinTimes : Obligations.SweepPinTimes := by
  intro s hinv hrun hpending hphase hactive hcounter hbitslow hpins
  have hs : s.SweepStart := ⟨⟨hinv, hrun, hpending, hcounter⟩, hphase, hactive⟩
  have hlow : ∀ d < s.initCount.toNat, s.channelBit d = false := fun d hd => by
    obtain ⟨-, sl, hsl⟩ := exists_slot hinv.shape (hd.trans_le hinv.count)
    rw [channelBit_of_slot hsl]
    exact hbitslow d sl hd hsl
  refine ⟨s.afterEvent, exec_event_of_inv hinv, fun c sl hc hsl => ?_, fun j hj => ?_⟩
  · rw [← pulseStart_nCh hinv]
    exact pulseStart_add_le hsl (hc.trans_le hinv.count)
  · obtain ⟨u, hu, hslots, hat⟩ := hs.run_sweepPins hpins hlow hj
    have hbit : ∀ d sl, s.slot? d = some sl → u.outBit sl.port.toNat sl.pin.toNat = u.channelBit d :=
      fun d sl hsl => (channelBit_of_slot ((hslots d).trans hsl)).symm
    refine ⟨u, hu, fun c sl hc hsl => ?_, fun c d slc sld hc hd hslc hsld hcbit hdbit => ?_,
      fun hph sl hact hsl => ?_, fun hph c sl hc hsl => ?_⟩
    · rw [hbit c sl hsl]
      exact hat.channelBit_iff hc hsl
    · rw [hbit c slc hslc] at hcbit
      rw [hbit d sld hsld] at hdbit
      exact hat.channelBit_unique hc hd hcbit hdbit
    · rw [hbit _ sl hsl]
      exact hat.channelBit_of_low hph hact
    · rw [hbit c sl hsl]
      exact hat.channelBit_of_high hph hc

end Sys2Proof.Machine

/-!
PROOFS. The angle-to-duration mapper (42_duration_mapper.md): the mapping as a function of the angle, and the timer that
an EVENT loads with it.
-/

namespace Sys2Proof.Machine

/-! ### The mapping (R112) -/

section mapping
variable (c : Config)

/-- Angle 0 lasts BASE ticks (42_duration_mapper.md R115). -/
@[simp] theorem duration_zero : duration c 0 = c.base := by simp [duration]

/-- A degree more lasts K ticks more (42_duration_mapper.md R114). -/
theorem duration_succ (a : Nat) : duration c (a + 1) = duration c a + c.k := by
  simp only [duration, Nat.succ_mul, Nat.add_right_comm]

/-- The ticks past BASE are K for each degree (42_duration_mapper.md R112, R117). -/
theorem duration_sub_base (a : Nat) : duration c a - c.base = a * c.k := Nat.add_sub_cancel ..

theorem duration_monotone : Monotone (duration c) :=
  monotone_nat_of_le_succ fun a => duration_succ c a ▸ Nat.le_add_right ..

/-- Since K is at least 1 (00_scope.md R7), each degree lasts longer than the one before it (42_duration_mapper.md R114). -/
theorem duration_strictMono (hk : 1 ≤ c.k) : StrictMono (duration c) :=
  strictMono_nat_of_lt_succ fun a => duration_succ c a ▸ Nat.lt_add_of_pos_right hk

end mapping

/-- Settles O41: angle 0 adds nothing to BASE, and angle 180 adds 180 degrees of K ticks. -/
theorem durationEndPoints : Obligations.DurationEndPoints :=
  fun c => ⟨⟨duration_zero c, rfl⟩, rfl, rfl⟩

/-- Settles O40: each degree adds K ticks, and K is at least 1. -/
theorem durationIsStrictlyIncreasing : Obligations.DurationIsStrictlyIncreasing := by
  intro c hc
  obtain ⟨-, -, -, ⟨hk, -⟩, -⟩ := hc
  refine ⟨fun a _ => ⟨?_, duration_strictMono c hk (Nat.lt_succ_self a)⟩, hk, fun a b hle _ => duration_monotone c hle⟩
  rw [duration_succ, Nat.add_sub_cancel_left]

/-- Settles O43: a strictly increasing mapping is injective, and past BASE a width is the angle times K. -/
theorem widthIdentifiesTheAngle : Obligations.WidthIdentifiesTheAngle := by
  intro c hc
  obtain ⟨-, -, -, ⟨hk, -⟩, -⟩ := hc
  refine ⟨fun a b _ _ heq => (duration_strictMono c hk).injective heq, fun a _ => ?_⟩
  rw [duration_sub_base]
  exact ⟨(Nat.mul_div_cancel a hk).symm, Nat.mul_mod_left ..⟩

/-! ### The timer that an EVENT loads (R116) -/

/-- The duration an EVENT loads is never 0 and fits the W bits of COMPARE (42_duration_mapper.md R116). -/
theorem State.Inv.segmentTicks_range {s : State} (hs : s.Inv) : 1 ≤ s.segmentTicks ∧ s.segmentTicks < s.cfg.span := by
  obtain ⟨-, hangle, -⟩ := hs.activeSlot_spec
  exact ⟨one_le_duration hs.config _, duration_lt_span hs.config hangle⟩

/-- Settles O42: the durations lie between the mapping's end points, and EVENT answers `afterEvent`, whose COMPARE is one
of them. -/
theorem durationsFitTheTimer : Obligations.DurationsFitTheTimer := by
  refine ⟨fun c a hc hangle => ?_, fun s t sl hs hsl hevent => ?_⟩
  · obtain ⟨-, -, -, ⟨-, hbase⟩, hmax, -⟩ := hc
    have hmin : c.dMin ≤ duration c a := (duration_zero c).ge.trans (duration_monotone c (Nat.zero_le a))
    have hle : duration c a ≤ c.dMax := duration_monotone c hangle
    exact ⟨hbase, hmin, hle, hmax⟩
  · obtain rfl : s.afterEvent = t := Host.Outcome.next.inj ((exec_event_of_inv hs).symm.trans hevent)
    obtain ⟨hpos, hspan⟩ := hs.segmentTicks_range
    have hticks : s.segmentTicks = duration s.cfg sl.angle.toNat := by rw [State.segmentTicks, activeSlot_eq hsl]
    exact ⟨hpos, Nat.le_pred_of_lt hspan, fun hzero =>
      (ticksToEvent_of_counter_zero (s := s.afterEvent) hzero hpos hspan).trans hticks⟩

end Sys2Proof.Machine

/-!
PROOFS. The GPIO ports (43_gpio_toggle.md). A write of one bit and the three ways an instruction treats the registers are
each stated once, as equations between bits; that the SPS reads no register is stated of its operations one by one and
carried from them to runs.
-/

namespace Sys2Proof.Machine

/-! ### The level of a pin (R127) -/

/-- A pin whose direction bit is 1 is driven to its output bit (43_gpio_toggle.md R127). -/
theorem pinLevel_of_driven {s : State} {p b : Nat} (hdir : s.dirBit p b = true) :
    s.pinLevel p b = if s.outBit p b then .high else .low :=
  if_pos hdir

/-- A pin whose direction bit is 0 is not driven (43_gpio_toggle.md R127). -/
theorem pinLevel_of_undriven {s : State} {p b : Nat} (hdir : s.dirBit p b = false) : s.pinLevel p b = .z :=
  if_neg (Bool.eq_false_iff.1 hdir)

/-- Settles O45: a driven pin by its output bit, and a pin that is not driven. -/
theorem pinLevelFollowsDirAndOut : Obligations.PinLevelFollowsDirAndOut :=
  fun _ _ _ => ⟨fun hdir hout => (pinLevel_of_driven hdir).trans (if_pos hout),
    fun hdir hout => (pinLevel_of_driven hdir).trans (if_neg (Bool.eq_false_iff.1 hout)), pinLevel_of_undriven⟩

/-! ### The port lookup (R120) -/

/-- An output register's address is no direction register's (00_scope.md R7). -/
theorem dirAddr_ne_outAddr {c : Config} (hc : c.WellFormed) {p q : PortAddr} (hp : p ∈ c.ports) (hq : q ∈ c.ports) :
    p.dirAddr ≠ q.outAddr := by
  obtain ⟨-, -, haddrs, -⟩ := hc
  obtain ⟨-, -, hdisjoint⟩ := List.nodup_append.1 haddrs
  exact hdisjoint _ (List.mem_map_of_mem hp) _ (List.mem_map_of_mem hq)

/-- Settles O11: the lookup both ways, output addresses apart from direction addresses, and INIT's last check. -/
theorem lookupFindsTheDirectionRegister : Obligations.LookupFindsTheDirectionRegister := by
  refine fun c hc => ⟨lookupPort_eq_some_iff hc, lookupPort_eq_none_iff c, fun q hq => ?_, ?_⟩
  · exact (lookupPort_eq_none_iff ..).2 fun p hp => dirAddr_ne_outAddr hc hp hq
  · rintro s pin addr rfl hch hport
    exact exec_of_instrEffect hc (initCommand_of_lookup_none pin hch hport)

/-! ### The single-bit write (R124) and the host's (R126) -/

/-- A write to an existing port completes (10_state.md R36). -/
theorem exists_writeGpioBit {s : State} (hshape : s.Shape) {port : Nat} (hport : port < s.cfg.nPorts) (reg : GpioReg)
    (b : Pin) (v : Bool) : ∃ t, s.writeGpioBit reg port b v = .ok t := by
  obtain ⟨-, hdir, hout⟩ := hshape
  cases reg with
  | dir => exact ⟨_, (writeGpioBit_dir_ok ..).2 ⟨hdir ▸ hport, rfl⟩⟩
  | out => exact ⟨_, (writeGpioBit_out_ok ..).2 ⟨hout ▸ hport, rfl⟩⟩

/-- The bits after a single-bit write: the one it names, and every other as before (43_gpio_toggle.md R124). -/
theorem writeGpioBit_bits {reg : GpioReg} {port : Nat} {bit : Pin} {v : Bool} {s t : State}
    (h : s.writeGpioBit reg port bit v = .ok t) (q b : Nat) :
    t.dirBit q b = (if reg = .dir ∧ q = port ∧ b = bit.toNat then v else s.dirBit q b) ∧
    t.outBit q b = (if reg = .out ∧ q = port ∧ b = bit.toNat then v else s.outBit q b) := by
  cases reg with
  | dir =>
    obtain ⟨hlt, rfl⟩ := (writeGpioBit_dir_ok ..).1 h
    simpa [State.dirBit, State.outBit] using getD_modify_setBit s.dir port bit v hlt q b
  | out =>
    obtain ⟨hlt, rfl⟩ := (writeGpioBit_out_ok ..).1 h
    simpa [State.dirBit, State.outBit] using getD_modify_setBit s.out port bit v hlt q b

/-- The host's write of a bit is the single-bit write (43_gpio_toggle.md R126). -/
theorem hostGpioWrite_of_ok {reg : GpioReg} {port : Nat} {bit : Pin} {v : Bool} {s t : State} (hcfg : s.cfg.WellFormed)
    (hport : port < s.cfg.nPorts) (h : s.writeGpioBit reg port bit v = .ok t) :
    hostGpioWrite reg port bit v s = .next t :=
  (if_pos hport).trans ((underConfig_next ..).2 ⟨hcfg, h⟩)

/-- Settles O44: the host's step is one single-bit write on the state with the step taken off the list. -/
theorem hostGpioWriteChangesOneBit : Obligations.HostGpioWriteChangesOneBit := by
  intro s reg port bit v rest hcfg hshape hport hpending
  obtain ⟨t, hwrite⟩ := exists_writeGpioBit (s := s.withPending rest) hshape hport reg bit v
  obtain ⟨hframe, hdir, hout⟩ := writeGpioBit_agreeOffPins hwrite
  rw [step_of_pending_cons hpending]
  exact ⟨t, hostGpioWrite_of_ok (s := s.withPending rest) hcfg hport hwrite,
    fun q b => (writeGpioBit_bits hwrite q b).1, fun q b => (writeGpioBit_bits hwrite q b).2, hdir, hout, hframe⟩

/-! ### What an instruction does to the GPIO registers (R122, R123) -/

/-- The direction bits after an accepted INIT: the bit it names is 1, every other is as before (43_gpio_toggle.md R122). -/
theorem acceptInit_dirBit {ch : Chan} {pin : Pin} {port : Nat} {s t : State} (h : acceptInit ch pin port s = .ok t)
    (p b : Nat) : t.dirBit p b = if p = port ∧ b = pin.toNat then true else s.dirBit p b := by
  obtain ⟨⟨-, hlt, -⟩, rfl⟩ := (acceptInit_ok ..).1 h
  exact getD_modify_setBit s.dir port pin true hlt p b

theorem acceptInit_out {ch : Chan} {pin : Pin} {port : Nat} {s t : State} (h : acceptInit ch pin port s = .ok t) :
    t.out = s.out := by
  obtain ⟨-, rfl⟩ := (acceptInit_ok ..).1 h
  rfl

/-- An event that completes leaves `afterEvent` (41_timer_event.md R94). -/
theorem eq_afterEvent {s t : State} (h : event s = .ok t) : t = s.afterEvent := by
  obtain ⟨sl, hsl, -, -, rfl⟩ := (event_ok ..).1 h
  obtain rfl := activeSlot_eq hsl
  rfl

/-- An instruction leaves the GPIO registers, or is an accepted INIT, or is the timer's and writes what an event writes
(43_gpio_toggle.md R125). -/
theorem exec_gpio_cases {i : Instr} {s t : State} (h : exec i s = .next t) :
    (t.dir = s.dir ∧ t.out = s.out) ∨
    (∃ pin addr port, i = .init s.initCount pin addr ∧ s.initCount.toNat < s.cfg.nCh ∧
      lookupPort s.cfg addr = some port ∧ acceptInit s.initCount pin port s = .ok t) ∨
    ((i = .tick ∨ i = .event) ∧ t.dir = s.dir ∧ t.out = s.afterEvent.out) := by
  obtain ⟨-, ⟨-, e, rfl⟩ | ⟨_, pin, addr, port, rfl, hch, rfl, hport, haccept⟩ | ⟨_, _, -, -, -, ⟨-, hset⟩ | ⟨-, rfl⟩⟩ |
    ⟨-, rfl⟩ | ⟨hi, htick⟩ | ⟨hi, hevent⟩⟩ := exec_next_cases i s t h
  · exact .inl ⟨State.setFlag_dir e s, State.setFlag_out e s⟩
  · exact .inr (.inl ⟨pin, addr, port, rfl, hch, hport, haccept⟩)
  · obtain ⟨-, rfl⟩ := (setAngle_ok ..).1 hset
    exact .inl ⟨rfl, rfl⟩
  · exact .inl ⟨rfl, rfl⟩
  · exact .inl ⟨rfl, rfl⟩
  · rcases timerTick_ok _ _ htick with ⟨-, rfl⟩ | ⟨-, -, rfl⟩ | ⟨-, -, hevent⟩
    · exact .inl ⟨rfl, rfl⟩
    · exact .inl ⟨rfl, rfl⟩
    · obtain rfl := eq_afterEvent hevent
      exact .inr (.inr ⟨.inl hi, rfl, rfl⟩)
  · obtain rfl := eq_afterEvent hevent
    exact .inr (.inr ⟨.inr hi, rfl, rfl⟩)

/-- Settles O46: only an accepted INIT writes a direction bit, and it writes 1. -/
theorem dirBitsAreNeverCleared : Obligations.DirBitsAreNeverCleared := by
  intro i s t p b h hbit
  rcases exec_gpio_cases h with ⟨hdir, -⟩ | ⟨_, _, _, -, -, -, haccept⟩ | ⟨-, hdir, -⟩
  · rwa [State.dirBit, hdir]
  · rw [acceptInit_dirBit haccept, hbit, ite_self]
  · rwa [State.dirBit, hdir]

/-- An event writes the output bit of the active channel if that is initialized, and no other (43_gpio_toggle.md R123). -/
theorem State.Inv.afterEvent_changed_outBit {s : State} (hs : s.Inv) {p b : Nat}
    (hne : s.afterEvent.outBit p b ≠ s.outBit p b) :
    s.activeCh.toNat < s.initCount.toNat ∧
      ∃ sl, s.slot? s.activeCh.toNat = some sl ∧ sl.port.toNat = p ∧ sl.pin.toNat = b := by
  obtain ⟨hsl, -, hport⟩ := hs.activeSlot_spec
  rw [afterEvent_outBit hsl hport] at hne
  obtain ⟨hinit, hp, hb⟩ := (ite_ne_right_iff.1 hne).1
  exact ⟨hinit, _, hsl, hp.symm, hb.symm⟩

/-- An accepted INIT writes the direction bit that its channel, now initialized, names (43_gpio_toggle.md R122). -/
theorem State.Inv.acceptInit_changed_dirBit {s t : State} (hs : s.Inv) {pin : Pin} {addr : RegAddr} {port : Nat}
    (hch : s.initCount.toNat < s.cfg.nCh) (hport : lookupPort s.cfg addr = some port)
    (haccept : acceptInit s.initCount pin port s = .ok t) {p b : Nat} (hne : t.dirBit p b ≠ s.dirBit p b) :
    s.initCount.toNat < t.initCount.toNat ∧
      ∃ sl, t.slot? s.initCount.toNat = some sl ∧ sl.port.toNat = p ∧ sl.pin.toNat = b := by
  rw [acceptInit_dirBit haccept] at hne
  obtain ⟨rfl, rfl⟩ := (ite_ne_right_iff.1 hne).1
  obtain ⟨-, rfl⟩ := (acceptInit_ok ..).1 haccept
  obtain ⟨-, sl, hsl⟩ := exists_slot hs.shape hch
  exact ⟨(Nat.lt_succ_self _).trans_eq (initCount_succ_toNat hs.config hch).symm, _,
    slots_modify_getElem?_same _ hsl, lookupPort_toNat hs.config hport, rfl⟩

/-- Settles O47: an OUT bit changes only with an event, a DIR bit only with an accepted INIT, each at the bit it names. -/
theorem onlyNamedGpioBitsChange : Obligations.OnlyNamedGpioBitsChange := by
  intro i s t p b hs h
  rcases exec_gpio_cases h with ⟨hdir, hout⟩ | ⟨pin, addr, port, rfl, hch, hport, haccept⟩ | ⟨hi, hdir, hout⟩
  · exact ⟨fun hne => (hne (by simp only [State.outBit, hout])).elim,
      fun hne => (hne (by simp only [State.dirBit, hdir])).elim⟩
  · refine ⟨fun hne => (hne (by simp only [State.outBit, acceptInit_out haccept])).elim, fun hne => ?_⟩
    obtain ⟨hlt, sl, hsl⟩ := hs.acceptInit_changed_dirBit hch hport haccept hne
    exact ⟨_, pin, addr, sl, rfl, hlt, hsl⟩
  · rw [State.outBit, hout]
    exact ⟨fun hne => ⟨hi, hs.afterEvent_changed_outBit hne⟩,
      fun hne => (hne (by simp only [State.dirBit, hdir])).elim⟩

/-! ### No result depends on a GPIO register (R125) -/

/-- The state with other contents of the GPIO registers. -/
def State.withPins (dir out : List Byte) (s : State) : State := { s with dir := dir, out := out }

@[simp] theorem State.withPins_dir (dir out : List Byte) (s : State) : (s.withPins dir out).dir = dir := rfl
@[simp] theorem State.withPins_out (dir out : List Byte) (s : State) : (s.withPins dir out).out = out := rfl

/-- Agreeing off the pins is differing by `withPins`, with tables of the same length. -/
theorem agreeOffPins_iff {s t : State} :
    s.AgreeOffPins t ↔
      ∃ dir out, t = s.withPins dir out ∧ dir.length = s.dir.length ∧ out.length = s.out.length := by
  constructor
  · rintro ⟨ht, hdir, hout⟩
    exact ⟨t.dir, t.out, ht, hdir, hout⟩
  · rintro ⟨dir, out, rfl, hdir, hout⟩
    exact ⟨rfl, hdir, hout⟩

theorem agreeOffPins_refl (s : State) : s.AgreeOffPins s := ⟨rfl, rfl, rfl⟩

/-- An effect that completes whatever the GPIO registers hold, with results that differ at most there. -/
def EffectIgnoresPins (f : State → Except Fault State) : Prop :=
  ∀ s t s', s.AgreeOffPins t → f s = .ok s' → ∃ t', f t = .ok t' ∧ s'.AgreeOffPins t'

/-- The same of a meaning, which answers an outcome. -/
def MeaningIgnoresPins (f : State → Host.Outcome State Fault Refusal) : Prop :=
  ∀ s t s', s.AgreeOffPins t → f s = .next s' → ∃ t', f t = .next t' ∧ s'.AgreeOffPins t'

/-- The configuration check reads no register. -/
theorem EffectIgnoresPins.underConfig {f : State → Except Fault State} (hf : EffectIgnoresPins f) :
    MeaningIgnoresPins fun s => underConfig s (f s) := by
  intro s t s' hagree h
  obtain ⟨hcfg, heffect⟩ := (underConfig_next ..).1 h
  obtain ⟨t', ht, hagree'⟩ := hf s t s' hagree heffect
  obtain ⟨dir, out, rfl, -, -⟩ := agreeOffPins_iff.1 hagree
  exact ⟨t', (underConfig_next ..).2 ⟨hcfg, ht⟩, hagree'⟩

theorem setFlag_agreeOffPins {s t : State} (e : ErrFlag) (h : s.AgreeOffPins t) :
    (s.setFlag e).AgreeOffPins (t.setFlag e) := by
  obtain ⟨dir, out, rfl, hdir, hout⟩ := agreeOffPins_iff.1 h
  cases e <;> exact ⟨rfl, hdir, hout⟩

theorem reject_ignoresPins (e : ErrFlag) : EffectIgnoresPins (reject e) := by
  intro s t s' hagree h
  obtain rfl := (reject_ok ..).1 h
  exact ⟨_, rfl, setFlag_agreeOffPins e hagree⟩

theorem setAngle_ignoresPins (ch : Nat) (a : Byte) : EffectIgnoresPins fun s => s.setAngle ch a := by
  intro s t s' hagree h
  obtain ⟨hlt, rfl⟩ := (setAngle_ok ..).1 h
  obtain ⟨dir, out, rfl, hdir, hout⟩ := agreeOffPins_iff.1 hagree
  exact ⟨_, (setAngle_ok ..).2 ⟨hlt, rfl⟩, rfl, hdir, hout⟩

theorem writeGpioBit_ignoresPins (reg : GpioReg) (port : Nat) (b : Pin) (v : Bool) :
    EffectIgnoresPins fun s => s.writeGpioBit reg port b v := by
  intro s t s' hagree h
  obtain ⟨dir, out, rfl, hdir, hout⟩ := agreeOffPins_iff.1 hagree
  cases reg with
  | dir =>
    obtain ⟨hlt, rfl⟩ := (writeGpioBit_dir_ok ..).1 h
    exact ⟨_, (writeGpioBit_dir_ok ..).2 ⟨hdir ▸ hlt, rfl⟩, rfl, by simpa using hdir, hout⟩
  | out =>
    obtain ⟨hlt, rfl⟩ := (writeGpioBit_out_ok ..).1 h
    exact ⟨_, (writeGpioBit_out_ok ..).2 ⟨hout ▸ hlt, rfl⟩, rfl, hdir, by simpa using hout⟩

theorem acceptInit_ignoresPins (ch : Chan) (pin : Pin) (port : Nat) : EffectIgnoresPins (acceptInit ch pin port) := by
  intro s t s' hagree h
  obtain ⟨⟨hch, hport, hspan⟩, rfl⟩ := (acceptInit_ok ..).1 h
  obtain ⟨dir, out, rfl, hdir, hout⟩ := agreeOffPins_iff.1 hagree
  exact ⟨_, (acceptInit_ok ..).2 ⟨⟨hch, hdir ▸ hport, hspan⟩, rfl⟩, rfl, by simpa using hdir, hout⟩

/-- INIT's checks read the configuration and INIT_COUNT alone (40_host_commands.md R78). -/
theorem initCommand_ignoresPins (ch : Chan) (pin : Pin) (addr : RegAddr) :
    EffectIgnoresPins (initCommand ch pin addr) := by
  intro s t s' hagree h
  obtain ⟨dir, out, rfl, -, -⟩ := agreeOffPins_iff.1 hagree
  rcases initCommand_ok _ _ _ _ _ h with ⟨hch, rfl⟩ | ⟨hch, hseq, rfl⟩ | ⟨hch, rfl, hport, rfl⟩ |
    ⟨hch, rfl, port, hport, haccept⟩
  · exact ⟨_, initCommand_of_nCh_le pin addr hch, setFlag_agreeOffPins .ch hagree⟩
  · exact ⟨_, initCommand_of_ne_initCount pin addr hch hseq, setFlag_agreeOffPins .seq hagree⟩
  · exact ⟨_, initCommand_of_lookup_none (s := s.withPins dir out) pin hch hport, setFlag_agreeOffPins .addr hagree⟩
  · obtain ⟨t', ht, hagree'⟩ := acceptInit_ignoresPins _ _ _ _ _ _ hagree haccept
    exact ⟨t', (initCommand_of_lookup_some (s := s.withPins dir out) pin hch hport).trans ht, hagree'⟩

/-- SETANG's checks read the configuration and INIT_COUNT alone (40_host_commands.md R79). -/
theorem setangCommand_ignoresPins (ch : Chan) (angle : BitVec 16) : EffectIgnoresPins (setangCommand ch angle) := by
  intro s t s' hagree h
  obtain ⟨dir, out, rfl, -, -⟩ := agreeOffPins_iff.1 hagree
  rcases setangCommand_ok _ _ _ _ h with ⟨hch, rfl⟩ | ⟨hch, huninit, rfl⟩ | ⟨hch, hinit, hangle, hset⟩ |
    ⟨hch, hinit, hangle, rfl⟩
  · exact ⟨_, setangCommand_of_nCh_le angle hch, setFlag_agreeOffPins .ch hagree⟩
  · exact ⟨_, setangCommand_of_uninit angle hch huninit, setFlag_agreeOffPins .uninit hagree⟩
  · obtain ⟨t', ht, hagree'⟩ := setAngle_ignoresPins _ _ _ _ _ hagree hset
    exact ⟨t', (setangCommand_of_valid (s := s.withPins dir out) hch hinit hangle).trans ht, hagree'⟩
  · exact ⟨_, setangCommand_of_invalid hch hinit hangle, hagree⟩

/-- An event writes an output bit and reads none (43_gpio_toggle.md R123). -/
theorem event_ignoresPins : EffectIgnoresPins event := by
  intro s t s' hagree h
  obtain ⟨sl, hsl, hport, hspan, rfl⟩ := (event_ok ..).1 h
  obtain ⟨dir, out, rfl, hdir, hout⟩ := agreeOffPins_iff.1 hagree
  exact ⟨_, (event_ok ..).2 ⟨sl, hsl, fun hinit => hout ▸ hport hinit, hspan, rfl⟩, rfl, hdir, by simpa using hout⟩

/-- Whether a tick counts, matches or does nothing is up to RUN, COUNTER and COMPARE (41_timer_event.md R91). -/
theorem timerTick_ignoresPins : EffectIgnoresPins timerTick := by
  intro s t s' hagree h
  obtain ⟨dir, out, rfl, hdir, hout⟩ := agreeOffPins_iff.1 hagree
  rcases timerTick_ok _ _ h with ⟨hrun, rfl⟩ | ⟨hrun, hne, rfl⟩ | ⟨hrun, hmatch, hevent⟩
  · exact ⟨_, timerTick_of_stopped hrun, hagree⟩
  · exact ⟨_, timerTick_of_ne hrun hne, rfl, hdir, hout⟩
  · obtain ⟨t', ht, hagree'⟩ := event_ignoresPins _ ((s.setCounter 0).withPins dir out) _ ⟨rfl, hdir, hout⟩ hevent
    exact ⟨t', (timerTick_of_match (s := s.withPins dir out) hrun hmatch).trans ht, hagree'⟩

/-- STATUS shows no GPIO register (10_state.md R33). -/
theorem giveStatus_ignoresPins : EffectIgnoresPins fun s => .ok (s.giveHost s.status) := by
  rintro s t s' hagree ⟨⟩
  obtain ⟨dir, out, rfl, hdir, hout⟩ := agreeOffPins_iff.1 hagree
  exact ⟨_, rfl, rfl, hdir, hout⟩

theorem instrEffect_ignoresPins (i : Instr) : EffectIgnoresPins (instrEffect i) := by
  cases i with
  | init ch pin addr => exact initCommand_ignoresPins ch pin addr
  | setang ch angle => exact setangCommand_ignoresPins ch angle
  | rdstat => exact giveStatus_ignoresPins
  | tick => exact timerTick_ignoresPins
  | event => exact event_ignoresPins
  | _ => exact reject_ignoresPins .op

/-- No instruction reads a GPIO register (43_gpio_toggle.md R125). -/
theorem exec_ignoresPins (i : Instr) : MeaningIgnoresPins (exec i) := by
  rw [funext (exec_eq_underConfig i)]
  exact (instrEffect_ignoresPins i).underConfig

/-- A host write at CMD runs its instruction, and at STATUS nothing (20_memory.md R44, R45). -/
theorem hostWrite_ignoresPins (addr : Nat) (bytes : List Byte) : MeaningIgnoresPins (hostWrite addr bytes) := by
  intro s t s' hagree h
  obtain ⟨dir, out, rfl, -, -⟩ := agreeOffPins_iff.1 hagree
  rcases hostWrite_next_cases _ _ _ _ h with ⟨rfl, i, hdecode, hexec⟩ | ⟨rfl, hlen, hcfg, rfl⟩
  · obtain ⟨t', ht, hagree'⟩ := exec_ignoresPins i _ _ _ hagree hexec
    exact ⟨t', (hostWrite_cmd (s.withPins dir out) hdecode).trans ht, hagree'⟩
  · exact ⟨_, hostWrite_status (s := s'.withPins dir out) hcfg hlen, hagree⟩

theorem hostRead_ignoresPins (addr size : Nat) : MeaningIgnoresPins (hostRead addr size) := by
  intro s t s' hagree h
  obtain ⟨dir, out, rfl, -, -⟩ := agreeOffPins_iff.1 hagree
  obtain ⟨hstatus, hexec⟩ := hostRead_next_cases _ _ _ _ h
  obtain ⟨t', ht, hagree'⟩ := exec_ignoresPins .rdstat _ _ _ hagree hexec
  exact ⟨t', (if_pos hstatus).trans ht, hagree'⟩

theorem hostGpioWrite_ignoresPins (reg : GpioReg) (port : Nat) (bit : Pin) (v : Bool) :
    MeaningIgnoresPins (hostGpioWrite reg port bit v) := by
  intro s t s' hagree h
  obtain ⟨dir, out, rfl, -, -⟩ := agreeOffPins_iff.1 hagree
  obtain ⟨hport, hcfg, hwrite⟩ := hostGpioWrite_next_cases _ _ _ _ _ _ h
  obtain ⟨t', ht, hagree'⟩ := writeGpioBit_ignoresPins reg port bit v _ _ _ hagree hwrite
  exact ⟨t', hostGpioWrite_of_ok (s := s.withPins dir out) hcfg hport ht, hagree'⟩

/-- After reset nothing is left of the registers' contents (70_reset_and_hazards.md R147). -/
theorem afterReset_ignoresPins : EffectIgnoresPins fun s => .ok s.afterReset := by
  rintro s t s' hagree ⟨⟩
  obtain ⟨dir, out, rfl, -, -⟩ := agreeOffPins_iff.1 hagree
  exact ⟨_, rfl, agreeOffPins_refl _⟩

theorem perform_ignoresPins (a : Action) : MeaningIgnoresPins (perform a) := by
  cases a with
  | write addr bytes => exact hostWrite_ignoresPins addr bytes
  | read addr size => exact hostRead_ignoresPins addr size
  | gpio reg port bit v => exact hostGpioWrite_ignoresPins reg port bit v
  | tick => exact exec_ignoresPins .tick
  | reset => exact afterReset_ignoresPins.underConfig

/-- The list of the agents' steps is the same in both states, and so is the action taken off it. -/
theorem step_ignoresPins : MeaningIgnoresPins step := by
  intro s t s' hagree h
  rw [step_eq_perform] at h
  obtain ⟨dir, out, rfl, hdir, hout⟩ := agreeOffPins_iff.1 hagree
  obtain ⟨t', ht, hagree'⟩ := perform_ignoresPins _ _ (s.taken.withPins dir out) _ ⟨rfl, hdir, hout⟩ h
  exact ⟨t', (step_eq_perform (s.withPins dir out)).trans ht, hagree'⟩

/-- Settles O48, by induction on the number of steps. -/
theorem pinsNeverInfluenceTheSps : Obligations.PinsNeverInfluenceTheSps := by
  intro n
  induction n with
  | zero =>
    rintro s t _ hagree ⟨⟩
    exact ⟨t, core_run_zero t, hagree⟩
  | succ n ih =>
    intro s t s' hagree h
    obtain ⟨u, hstep, hrun⟩ := core_run_succ_next n s s' h
    obtain ⟨v, hstep', hagree'⟩ := step_ignoresPins s t u hagree hstep
    obtain ⟨t', hrun', hfinal⟩ := ih u v s' hagree' hrun
    exact ⟨t', (core_run_succ n t v hstep').trans hrun', hfinal⟩

end Sys2Proof.Machine

/-!
PROOFS. Exceptions (60_exceptions.md). Every instruction either rejects, which is one flag and nothing else, or leaves all
five flags; and from the invariant every instruction answers a next state, so a step stops only at an action that the
spec gives no meaning.
-/

namespace Sys2Proof.Machine

/-! ### The flags (R130, R132) -/

/-- An instruction is a rejection, or it leaves every flag (60_exceptions.md R130). -/
theorem exec_flag_cases {i : Instr} {s t : State} (h : exec i s = .next t) :
    (∃ e, t = s.setFlag e) ∨ ∀ e, t.flag e = s.flag e := by
  obtain ⟨-, ⟨-, e, rfl⟩ | ⟨_, _, _, _, -, -, -, -, haccept⟩ | ⟨_, _, -, -, -, ⟨-, hset⟩ | ⟨-, rfl⟩⟩ | ⟨-, rfl⟩ |
    ⟨-, htick⟩ | ⟨-, hevent⟩⟩ := exec_next_cases i s t h
  · exact .inl ⟨e, rfl⟩
  · obtain ⟨-, rfl⟩ := (acceptInit_ok ..).1 haccept
    exact .inr fun _ => rfl
  · obtain ⟨-, rfl⟩ := (setAngle_ok ..).1 hset
    exact .inr fun _ => rfl
  · exact .inr fun _ => rfl
  · exact .inr fun _ => rfl
  · rcases timerTick_ok _ _ htick with ⟨-, rfl⟩ | ⟨-, -, rfl⟩ | ⟨-, -, hevent⟩
    · exact .inr fun _ => rfl
    · exact .inr fun _ => rfl
    · obtain rfl := eq_afterEvent hevent
      exact .inr (s.setCounter 0).afterEvent_flag
  · obtain rfl := eq_afterEvent hevent
    exact .inr s.afterEvent_flag

/-- Settles O17: a rejection is one of five states, one for each flag. -/
theorem commandSetsAtMostOneFlag : Obligations.CommandSetsAtMostOneFlag := by
  intro w s t h
  rcases exec_flag_cases h with ⟨e, rfl⟩ | hkept
  · cases e with
    | op => exact .inr (.inl rfl)
    | ch => exact .inr (.inr (.inl rfl))
    | seq => exact .inr (.inr (.inr (.inl rfl)))
    | addr => exact .inr (.inr (.inr (.inr (.inl rfl))))
    | uninit => exact .inr (.inr (.inr (.inr (.inr rfl))))
  · exact .inl hkept

/-! ### Every instruction completes (R133) -/

/-- INIT is rejected by one of its checks, or accepted (60_exceptions.md R132). -/
theorem exists_exec_init {s : State} (hcfg : s.cfg.WellFormed) (hshape : s.Shape) (ch : Chan) (pin : Pin)
    (addr : RegAddr) : ∃ t, exec (.init ch pin addr) s = .next t := by
  obtain ⟨hrejectCh, hrejectSeq, hrejectAddr⟩ := rejectedInitSetsOneFlag s ch pin addr hcfg
  by_cases hch : s.cfg.nCh ≤ ch.toNat
  · exact ⟨_, hrejectCh hch⟩
  rw [not_le] at hch
  by_cases hseq : ch = s.initCount
  · rcases hport : lookupPort s.cfg addr with _ | port
    · exact ⟨_, hrejectAddr hch hseq ((lookupPort_eq_none_iff ..).1 hport)⟩
    · obtain ⟨pair, hpair, haddr⟩ := (lookupPort_eq_some_iff hcfg addr port).1 hport
      obtain ⟨t, ht, -⟩ := acceptedInitEffect s ch pin addr port pair hcfg hshape hch hseq hpair haddr
      exact ⟨t, ht⟩
  · exact ⟨_, hrejectSeq hch hseq⟩

/-- SETANG is rejected, stores its angle, or ignores it (40_host_commands.md R86). -/
theorem exists_exec_setang {s : State} (hcfg : s.cfg.WellFormed) (hshape : s.Shape) (ch : Chan) (angle : BitVec 16) :
    ∃ t, exec (.setang ch angle) s = .next t := by
  obtain ⟨hstored, hignored, hrejected⟩ := setangSetsOnlyItsAngle s ch angle hcfg
  by_cases hreject : s.cfg.nCh ≤ ch.toNat ∨ s.initCount.toNat ≤ ch.toNat
  · obtain ⟨t, ht, -⟩ := hrejected hreject
    exact ⟨t, ht⟩
  rw [not_or, not_le, not_le] at hreject
  obtain ⟨hch, hinit⟩ := hreject
  rcases Nat.lt_or_ge 180 angle.toNat with hangle | hangle
  · exact ⟨s, hignored hch hinit hangle⟩
  · obtain ⟨t, ht, -⟩ := hstored hshape hch hinit hangle
    exact ⟨t, ht⟩

/-- A tick does nothing, counts, or matches and runs EVENT, which completes (41_timer_event.md R91, R99). -/
theorem State.Inv.exists_exec_tick {s : State} (hs : s.Inv) : ∃ t, exec .tick s = .next t := by
  cases hrun : s.run with
  | false => exact ⟨_, exec_tick_of_stopped hs.config hrun⟩
  | true =>
    by_cases hmatch : nextCount s = s.compare
    · have hzero : (s.setCounter 0).Inv := setCounter_inv hs hrun (Nat.two_pow_pos _)
      exact ⟨_, (exec_tick_of_match hrun hmatch).trans (exec_event_of_inv hzero)⟩
    · exact ⟨_, exec_tick_of_ne hs.config hrun hmatch⟩

/-- From the invariant no instruction faults or refuses (60_exceptions.md R133). -/
theorem State.Inv.exists_exec {s : State} (hs : s.Inv) (i : Instr) : ∃ t, exec i s = .next t := by
  cases i with
  | init ch pin addr => exact exists_exec_init hs.config hs.shape ch pin addr
  | setang ch angle => exact exists_exec_setang hs.config hs.shape ch angle
  | rdstat => exact ⟨_, exec_rdstat hs.config⟩
  | tick => exact hs.exists_exec_tick
  | event => exact ⟨_, exec_event_of_inv hs⟩
  | _ => exact ⟨_, everyReservedRowCompletes _ s rfl hs.config⟩

/-! ### Every defined step completes (R133, 20_memory.md R44) -/

/-- Four bytes are a command word (30_encoding.md R58). -/
theorem exists_decodeBytes {bytes : List Byte} (h : bytes.length = 4) : ∃ i, decodeBytes bytes = .ok i := by
  obtain ⟨b0, b1, b2, b3, rfl⟩ := List.length_eq_four.1 h
  exact ⟨_, rfl⟩

/-- From the invariant an agent's step that the spec gives a meaning completes (20_memory.md R44). -/
theorem State.Inv.exists_perform {s : State} (hs : s.Inv) {a : Action} (ha : a.Defined s.cfg) :
    ∃ t, perform a s = .next t := by
  cases a with
  | write addr bytes =>
    obtain ⟨hlen, rfl | rfl⟩ := ha
    · obtain ⟨i, hi⟩ := exists_decodeBytes hlen
      obtain ⟨t, ht⟩ := hs.exists_exec i
      exact ⟨t, (hostWrite_cmd s hi).trans ht⟩
    · exact ⟨s, hostWrite_status hs.config hlen⟩
  | read addr size => exact ⟨_, (if_pos ha).trans (exec_rdstat hs.config)⟩
  | gpio reg port bit v =>
    obtain ⟨t, hwrite⟩ := exists_writeGpioBit hs.shape ha reg bit v
    exact ⟨t, hostGpioWrite_of_ok hs.config ha hwrite⟩
  | tick => exact hs.exists_exec_tick
  | reset => exact ⟨s.afterReset, (underConfig_next ..).2 ⟨hs.config, rfl⟩⟩

/-- The tick of an empty list has a meaning (41_timer_event.md R109; log 3). -/
theorem nextAction_defined {s : State} (h : ∀ a, s.pending.head? = some a → a.Defined s.cfg) :
    s.nextAction.Defined s.cfg := by
  rw [State.nextAction, List.headD_eq_head?_getD]
  cases hhead : s.pending.head? with
  | none => exact trivial
  | some a => exact h a hhead

/-- Settles O52: the step performs a defined action on a state that still meets the invariant. -/
theorem definedStepsComplete : Obligations.DefinedStepsComplete := by
  intro s hs hdefined
  rw [step_eq_perform]
  exact (taken_inv hs).exists_perform (nextAction_defined hdefined)

end Sys2Proof.Machine

/-!
PROOFS. Reset and the hazard of a late INIT (70_reset_and_hazards.md). Reset is one action of the platform; an INIT that is
accepted while a segment is being timed keeps the invariant, so the interval law counts from the state it leaves.
-/

namespace Sys2Proof.Machine

/-! ### Reset (R147, R150) -/

/-- Settles O53: reset at the head of the list answers `State.afterReset`, which keeps the rest of the list (log 16). -/
theorem resetInputRestoresTheResetState : Obligations.ResetInputRestoresTheResetState := by
  intro s rest hcfg hpending
  have hreset : platformReset (s.withPending rest) = .next (s.withPending rest).afterReset :=
    (underConfig_next ..).2 ⟨hcfg, rfl⟩
  exact (step_of_pending_cons hpending).trans hreset

/-- Reset clears every direction bit (10_state.md R40); a bit that does not exist reads 0 too (log 18). -/
@[simp] theorem resetWith_dirBit (c : Config) (p b : Nat) : (State.resetWith c).dirBit p b = false := by
  rw [State.dirBit, State.resetWith_dir, List.getD_eq_getElem?_getD, List.getElem?_getD_replicate_default_eq]
  exact BitVec.getLsbD_zero

/-- Settles O54: no direction bit is set, so no pin is driven. -/
theorem pinsUndrivenAfterReset : Obligations.PinsUndrivenAfterReset :=
  fun c p b => pinLevel_of_undriven (resetWith_dirBit c p b)

/-! ### INIT while a segment is being timed (R156) -/

/-- An accepted INIT at the head of the list keeps the invariant and COUNTER, and writes INIT_COMPARE to COMPARE
(40_host_commands.md R78, R85). -/
theorem step_of_acceptedInit {s : State} {w : Word} {pin : Pin} {addr : RegAddr} {port : Nat} {pair : PortAddr}
    {rest : List Action} (hs : s.Inv) (hpending : s.pending = commandWrite s.cfg w :: rest)
    (hcount : s.initCount.toNat < s.cfg.nCh) (hdecode : decode w = .init s.initCount pin addr)
    (hpair : s.cfg.ports[port]? = some pair) (haddr : pair.dirAddr = addr) :
    ∃ t, step s = .next t ∧ t.Inv ∧ t.cfg = s.cfg ∧ t.pending = rest ∧ t.run = true ∧ t.counter = s.counter ∧
      t.compare = s.cfg.initCompare := by
  obtain ⟨t, hexec, -, -, -, -, -, -, ht⟩ :=
    acceptedInitEffect (s.withPending rest) s.initCount pin addr port pair hs.config hs.shape hcount rfl hpair haddr
  have hstep : step s = .next t := (step_of_commandWrite hpending).trans (hdecode ▸ hexec)
  exact ⟨t, hstep, stepKeepsTheInvariant s t hs hstep, (congrArg State.cfg ht :), congrArg State.pending ht,
    congrArg State.run ht, (congrArg State.counter ht :), congrArg State.compare ht⟩

/-- Settles O38: the interval law from the state the INIT leaves, with INIT_COMPARE ahead of COUNTER or not. -/
theorem lateInitChangesTheSegment : Obligations.LateInitChangesTheSegment := by
  intro s w pin addr port pair hs _ hcount hpending hdecode hpair haddr
  obtain ⟨t, hstep, ht, hcfg, hnone, hrun, hcounter, hcompare⟩ :=
    step_of_acceptedInit hs hpending hcount hdecode hpair haddr
  obtain ⟨hlt, hfits⟩ := ht.widths
  have hticks := ticksToEvent_eq hlt hfits
  have hevent : core.run t.ticksToEvent t = exec .event { t with counter := 0 } := run_ticksToEvent ht hrun hnone
  rw [hcfg, hcounter, hcompare] at hticks
  refine ⟨t, hstep, hcounter, hcompare, fun hahead => ?_, fun hpassed => ?_⟩
  · rwa [hticks, if_pos hahead] at hevent
  · rwa [hticks, if_neg hpassed.not_gt] at hevent

end Sys2Proof.Machine
